-- ==== Sys2Proof/Word.lean ====
section
/-! DEFINITION. The word types of the model.

Bit 0 is the least significant bit of a field (`spec/00_scope.md` R7). -/

namespace Sys2Proof

/-- One byte of an instruction record or of register-backed storage. -/
abbrev Byte := BitVec 8

/-- The bits of one element of a parameter or of a channel block. An element of a type of two bytes
occupies the low 16 bits (log entry 32). -/
abbrev Elem := BitVec 32

end Sys2Proof
end

