-- ==== Sys2Proof/Syntax.lean ====
section
/-! DEFINITION. The decoded instruction: one constructor of `Instr` for each row of
`spec/opcode_table.json`, over the record of fields of `spec/30_encoding.md` R42.

Fields are kept as the encoding has them (R43), so that a term that breaks a check of R64 can be
written down and is refused by `WellFormed`. -/

namespace Sys2Proof

/-- The eleven sampler operations (R1, R46). -/
inductive SampleOp where
  | sample
  | sampleB
  | sampleL
  | sampleC
  | sampleD
  | sampleBC
  | sampleLC
  | lod
  | sampleDC
  | sampleLz
  | sampleCLz
  deriving DecidableEq, Repr

/-- The names of the parameters (R60, R93). -/
inductive ParamName where
  | u
  | v
  | r
  | ai
  | bias
  | lod
  | ref
  | dudx
  | dudy
  | dvdx
  | dvdy
  | drdx
  | drdy
  deriving DecidableEq, Repr

/-- The four colour components, "R being bit 0 and A bit 3" of the mask (R54). -/
inductive Channel where
  | R
  | G
  | B
  | A
  deriving DecidableEq, Repr

/-- The element types of a variable: the six that R10 names, and any other type, which no operand of
this instruction may have (R58, R62). -/
inductive ElemType where
  | hf
  | f
  | w
  | uw
  | d
  | ud
  | other
  deriving DecidableEq, Repr

/-- The six surface types of the Notes' table (R29). -/
inductive SurfaceType where
  | dim1
  | dim1Array
  | dim2
  | dim2Array
  | dim3
  | cube
  deriving DecidableEq, Repr

/-- A scalar operand: an immediate of 16 bits or a variable, the two kinds that R19 describes, or an
operand of any other kind, since "The operand kinds a `scalar` admits" are open: what spells it, and the
general variables it names (log entry 8). -/
inductive ScalarOperand where
  | imm (value : BitVec 16)
  | var (id : Nat)
  | other (term : Nat) (vars : List Nat)
  deriving DecidableEq, Repr

/-- The general variables that a scalar operand names. -/
def ScalarOperand.names : ScalarOperand → List Nat
  | .imm _ => []
  | .var id => [id]
  | .other _ vars => vars

/-- A raw operand: a general variable and a byte offset into it (R15). -/
structure RawOperand where
  id : Nat
  off : Nat
  deriving DecidableEq, Repr

/-- The fields all eleven operations share, in the order of the encoding (R42, R43). `NumParams` is
the length of `params` (R42, R59; log entry 34). -/
structure Fields where
  /-- `Op[5]`, pixel null mask enable (R47). -/
  pnm : Bool
  /-- `Op[6]`, CPS LOD compensation enable (R48). -/
  cps : Bool
  /-- `Op[7]`, non-uniform sampler state (R49). -/
  nonuni : Bool
  /-- `Exec_size[2:0]` (R50). -/
  execSize : BitVec 3
  /-- `Exec_size[3]`, not described by the source (R52). -/
  execBit3 : Bool
  /-- `Exec_size[7:4]`, the execution mask control (R51). -/
  emctrl : BitVec 4
  /-- `Pred` (R53). -/
  pred : BitVec 16
  /-- `Channels[3:0]` (R54). -/
  channels : BitVec 4
  /-- `Channels[7:4]`, not described by the source (R54). -/
  channelsHigh : BitVec 4
  /-- `Aoffimmi` (R55). -/
  aoffimmi : ScalarOperand
  /-- `Sampler`, the index of the sampler variable (R56). -/
  sampler : BitVec 8
  /-- `Surface`, the index of the surface variable (R57). -/
  surface : BitVec 8
  /-- `Dst` (R58). -/
  dst : RawOperand
  /-- The supplied parameters, position 0 first (R59, R60). -/
  params : List RawOperand
  deriving DecidableEq, Repr

/-- The instructions: one constructor per row of the opcode table. -/
inductive Instr where
  | sample (f : Fields)
  | sampleB (f : Fields)
  | sampleL (f : Fields)
  | sampleC (f : Fields)
  | sampleD (f : Fields)
  | sampleBC (f : Fields)
  | sampleLC (f : Fields)
  | lod (f : Fields)
  | sampleDC (f : Fields)
  | sampleLz (f : Fields)
  | sampleCLz (f : Fields)
  deriving DecidableEq, Repr

/-- `I.op` of R42. -/
def Instr.op : Instr → SampleOp
  | .sample _ => .sample
  | .sampleB _ => .sampleB
  | .sampleL _ => .sampleL
  | .sampleC _ => .sampleC
  | .sampleD _ => .sampleD
  | .sampleBC _ => .sampleBC
  | .sampleLC _ => .sampleLC
  | .lod _ => .lod
  | .sampleDC _ => .sampleDC
  | .sampleLz _ => .sampleLz
  | .sampleCLz _ => .sampleCLz

/-- The other fields of the record of R42. -/
def Instr.fields : Instr → Fields
  | .sample f => f
  | .sampleB f => f
  | .sampleL f => f
  | .sampleC f => f
  | .sampleD f => f
  | .sampleBC f => f
  | .sampleLC f => f
  | .lod f => f
  | .sampleDC f => f
  | .sampleLz f => f
  | .sampleCLz f => f

/-- The instruction of operation `op` with the fields `f`. -/
def Instr.of (op : SampleOp) (f : Fields) : Instr :=
  match op with
  | .sample => .sample f
  | .sampleB => .sampleB f
  | .sampleL => .sampleL f
  | .sampleC => .sampleC f
  | .sampleD => .sampleD f
  | .sampleBC => .sampleBC f
  | .sampleLC => .sampleLC f
  | .lod => .lod f
  | .sampleDC => .sampleDC f
  | .sampleLz => .sampleLz f
  | .sampleCLz => .sampleCLz f

end Sys2Proof
end

