-- ==== Sys2Proof/Config.lean ====
section
/-! DEFINITION. The parameters of `spec/00_scope.md` R6 and the free values.

Parameters that are plain data stand in `Config`, a field of the state that no step writes (log entry
1). What the spec keeps uninterpreted is an `opaque` constant: no proof can learn a value of it. -/

namespace Sys2Proof

/-- How a parameter that R19, R20 or R21 leaves open is taken: uninterpreted, or by the instantiation
the rule recommends (R20, R21; log entries 14 and 15) or describes (R19; log entry 8). -/
inductive Reading where
  | uninterpreted
  | recommended
  deriving DecidableEq, Repr

/-- `ScalarCodec` and `RawCodec` (R6): each a finite table of codes (log entry 3). The first code
that is a prefix of the bytes is the one read. -/
structure Codecs where
  scalars : List (List Byte × ScalarOperand)
  raws : List (List Byte × RawOperand)
  deriving DecidableEq, Repr

/-- No code of a table is a prefix of another's: reading one does not depend on what follows. -/
abbrev prefixFree {α : Type} (table : List (List Byte × α)) : Prop :=
  table.Pairwise fun x y => ¬ x.1 <+: y.1 ∧ ¬ y.1 <+: x.1

/-- Both tables can be read unambiguously. -/
abbrev Codecs.wf (c : Codecs) : Prop :=
  prefixFree c.scalars ∧ prefixFree c.raws

/-- The parameters of R6 that are plain data. -/
structure Config where
  /-- `PLATFORM_GE_ICLLP`. -/
  platformGeIcllp : Bool
  /-- `GRF_BYTES` in dwords, less one: every value stands for a positive multiple of 4. -/
  grfDWordsLess1 : Nat
  /-- `ALLOW_DST_PARAM_OVERLAP`. -/
  allowDstParamOverlap : Bool
  /-- How `LaneEnable` is taken. -/
  laneReading : Reading
  /-- How `PredEval` is taken. -/
  predReading : Reading
  /-- How `ReadScalar16` is taken. -/
  scalarReading : Reading
  /-- `ScalarCodec` and `RawCodec`. -/
  codecs : Codecs
  deriving DecidableEq, Repr

/-- `GRF_BYTES`, the register size, "positive integer, multiple of 4" (R6). -/
def Config.grfBytes (c : Config) : Nat :=
  4 * (c.grfDWordsLess1 + 1)

/-- A placeholder for the codecs, which are OPEN (R6): the one byte 0 spells the immediate 0 and the
start of variable 0. DESIGN CHOICE, log entry 2. -/
def Codecs.placeholder : Codecs where
  scalars := [([0], .imm 0)]
  raws := [([0], ⟨0, 0⟩)]

/-- The parameters at reset. The spec leaves them OPEN; DESIGN CHOICE, log entry 2. -/
def Config.atReset : Config where
  platformGeIcllp := true
  grfDWordsLess1 := 7
  allowDstParamOverlap := false
  laneReading := .uninterpreted
  predReading := .uninterpreted
  scalarReading := .uninterpreted
  codecs := .placeholder

/-- The request a step makes of the sampling function (R81). `params` has an entry for every name
of the operation, with one element per lane; `en` is `n` bits. -/
structure SampleReq where
  op : SampleOp
  cps : Bool
  nonuni : Bool
  pnm : Bool
  n : Nat
  en : BitVec 16
  channels : BitVec 4
  offU : Int
  offV : Int
  offR : Int
  surfaceType : SurfaceType
  tp : ElemType
  td : ElemType
  params : List (ParamName × List Elem)
  deriving DecidableEq, Repr

/-- What the sampling function returns (R81): the bits of each channel and lane, and for each lane
whether no texel came from a null page (R86). -/
structure SampleRes where
  data : Channel → Nat → Elem
  null : Nat → Bool
  deriving Inhabited

namespace Config

/-- `SampleFn` (R81): the request, the surface contents, the sampler state contents and the choice.
Uninterpreted and total; log entry 17. -/
opaque sampleFn : SampleReq → List Byte → List Byte → Nat → SampleRes

/-- `ReadScalar16` where it is uninterpreted, and of every operand of a kind that R19 does not describe:
the operand, and the type and the bytes of each variable it names; none is the fault `UnwrittenRead`; log
entry 8. -/
opaque readScalar16 :
  ScalarOperand → List (Option (ElemType × List (Option Byte))) → Option (BitVec 16)

/-- `LaneEnable` where it is uninterpreted (R21): the execution mask, the mask control and the number
of lanes; log entry 14. -/
opaque laneEnable : BitVec 32 → BitVec 4 → Nat → BitVec 16

/-- `PredEval` where it is uninterpreted (R20): the predicate variables, the execution mask, `Pred`,
the mask control and the number of lanes; none is the fault `UnwrittenRead`; log entry 15. -/
opaque predEval :
  List (List (Option Bool)) → BitVec 32 → BitVec 16 → BitVec 4 → Nat → Option (BitVec 16)

/-- The mask that the recommended reading of `Pred` gives under a combine control other than "none":
R20 names the controls and does not state their result. The control, the inversion bit and the
predicate's bits; log entry 15. -/
opaque predCombine : BitVec 2 → Bool → List Bool → BitVec 16

/-- A byte drawn by the step with this stamp, at this offset of its writeback (R9, R85, R86); log
entry 18. -/
opaque drawByte : Nat → Nat → Byte

/-- The dword drawn for the pixel null mask by the step with this stamp (R86); log entry 18. -/
opaque drawDWord : Nat → BitVec 32

/-- An element drawn for a channel and a lane by the step with this stamp (R101); log entry 18. -/
opaque drawElem : Nat → Channel → Nat → Elem

/-- The surface contents drawn by the step with this stamp, where another agent may write the surface
(R37 (b)); log entry 19. -/
opaque drawSurface : Nat → List Byte

/-- The sampler state contents drawn by the step with this stamp, where another agent may write them (the
spec's decision D27); log entry 19. -/
opaque drawSampler : Nat → List Byte

end Config

end Sys2Proof
end

