-- ==== Sys2Proof/Decode.lean ====
section
/-! DEFINITION. The encoding (`spec/30_encoding.md`): the tables, the decoder from bytes, the encoder,
the cutting of a run of bytes into instruction records, and the conditions that `WellFormed` tests.

The decoder cuts the fields in the order of R43. It refuses an opcode byte that is not `0x6d` and an
unlisted operation as soon as it sees the byte (R64, first two rows; log entry 7), and the operands it
cannot cut (R106, last two rows). Every other check is `WellFormed`'s. -/

namespace Sys2Proof

/-- Why the decoder refuses (R106). -/
inductive DecodeError where
  /-- The first byte is not `0x6d` (R45). -/
  | notThisOpcode
  /-- `Op[4:0]` is not one of the eleven listed values (R65). -/
  | unlistedOp
  /-- `ScalarCodec` or `RawCodec` rejects the bytes. -/
  | operandCodec
  /-- The bytes end before the instruction does. -/
  | truncated
  deriving DecidableEq, Repr

/-- The opcode byte of `3D_SAMPLE` (R45). -/
def opcodeByte : Byte := 0x6d

/-- `Op[4:0]` of each operation (R46). -/
def SampleOp.bits : SampleOp → BitVec 5
  | .sample => 0b00000
  | .sampleB => 0b00001
  | .sampleL => 0b00010
  | .sampleC => 0b00011
  | .sampleD => 0b00100
  | .sampleBC => 0b00101
  | .sampleLC => 0b00110
  | .lod => 0b01001
  | .sampleDC => 0b10100
  | .sampleLz => 0b11000
  | .sampleCLz => 0b11001

/-- The eleven operations in the order of R46. -/
def SampleOp.all : List SampleOp :=
  [.sample, .sampleB, .sampleL, .sampleC, .sampleD, .sampleBC, .sampleLC, .lod, .sampleDC,
    .sampleLz, .sampleCLz]

/-- The operation with these bits; the twenty-one unlisted values spell none (R65). -/
def SampleOp.ofBits (b : BitVec 5) : Option SampleOp :=
  SampleOp.all.find? fun op => op.bits == b

/-- The names of the parameters by position (R60). -/
def paramNames : SampleOp → List ParamName
  | .sample => [.u, .v, .r, .ai]
  | .sampleB => [.bias, .u, .v, .r, .ai]
  | .sampleL => [.lod, .u, .v, .r, .ai]
  | .sampleC => [.ref, .u, .v, .r, .ai]
  | .sampleD => [.u, .dudx, .dudy, .v, .dvdx, .dvdy, .r, .drdx, .drdy, .ai]
  | .sampleBC => [.ref, .bias, .u, .v, .r, .ai]
  | .sampleLC => [.ref, .lod, .u, .v, .r, .ai]
  | .lod => [.u, .v, .r, .ai]
  | .sampleDC => [.ref, .u, .dudx, .dudy, .v, .dvdx, .dvdy, .r, .drdx, .drdy, .ai]
  | .sampleLz => [.u, .v, .r, .ai]
  | .sampleCLz => [.ref, .u, .v, .r, .ai]

/-- `Count(op)` (R60). -/
def SampleOp.count (op : SampleOp) : Nat :=
  (paramNames op).length

/-- The operations for which "CPS LOD compensation enable" is available (R48, C3). -/
def SampleOp.cpsAvailable : SampleOp → Bool
  | .sample | .sampleB | .sampleBC | .sampleC | .lod => true
  | .sampleL | .sampleD | .sampleLC | .sampleDC | .sampleLz | .sampleCLz => false

/-- The number `n` of lanes that `Exec_size[2:0]` lists (R50). An unlisted value, which is refused,
has none. -/
def listedLanes (execSize : BitVec 3) : Option Nat :=
  if execSize = 0b011 then some 8 else if execSize = 0b100 then some 16 else none

/-- `n` of an instruction. Of an instruction with an unlisted size, which is refused before it is
stepped, it is 0 (log entry 29). -/
def Fields.lanes (f : Fields) : Nat :=
  (listedLanes f.execSize).getD 0

/-- "with R being bit 0 and A bit 3" (R54). -/
def Channel.bit : Channel → Nat
  | .R => 0
  | .G => 1
  | .B => 2
  | .A => 3

/-- The channels "in RGBA order" (R83). -/
def Channel.all : List Channel := [.R, .G, .B, .A]

/-- The channel is enabled by the write mask (R54). -/
def Fields.enables (f : Fields) (c : Channel) : Bool :=
  f.channels.getLsbD c.bit

/-- The recommended reading of the mask control (R21): `Mk`, with `ctrl[2:0] = k - 1`, starts at bit
`4 * (k - 1)` of the execution mask. -/
def firstLane (emctrl : BitVec 4) : Nat :=
  4 * (emctrl.extractLsb' 0 3).toNat

/-- The recommended reading of the mask control (R21): `ctrl[3] = 1` are the `_NM` names. -/
def isNoMask (emctrl : BitVec 4) : Bool :=
  emctrl.getLsbD 3

/-! ## Cutting the fields -/

/-- One byte off the front. -/
def takeByte : List Byte → Except DecodeError (Byte × List Byte)
  | [] => .error .truncated
  | b :: rest => .ok (b, rest)

/-- What is left of `bs` after `code`, if it begins with it. -/
def dropCode : (code bs : List Byte) → Option (List Byte)
  | [], bs => some bs
  | _ :: _, [] => none
  | c :: code, b :: bs => if c = b then dropCode code bs else none

/-- Read an operand by a codec's table: the first code that is a prefix of the bytes. Bytes that end
inside a code are truncated; any other bytes are rejected (log entry 4). -/
def readCode {α : Type} (table : List (List Byte × α)) (bs : List Byte) :
    Except DecodeError (α × List Byte) :=
  match table.findSome? fun e => (dropCode e.1 bs).map fun rest => (e.2, rest) with
  | some r => .ok r
  | none =>
    if table.any fun e => (dropCode bs e.1).isSome then .error .truncated else .error .operandCodec

/-- Read `k` raw operands one after another (R43, R44). -/
def readRaws (table : List (List Byte × RawOperand)) :
    (k : Nat) → (bs : List Byte) → Except DecodeError (List RawOperand × List Byte)
  | 0, bs => .ok ([], bs)
  | k + 1, bs =>
    match readCode table bs with
    | .error e => .error e
    | .ok (p, bs) =>
      match readRaws table k bs with
      | .error e => .error e
      | .ok (ps, bs) => .ok (p :: ps, bs)

/-- The fields after the two selecting bytes (R43). -/
def readFields (c : Codecs) (opByte : Byte) (bs : List Byte) :
    Except DecodeError (Fields × List Byte) := do
  let (exec, bs) ← takeByte bs
  let (predLow, bs) ← takeByte bs
  let (predHigh, bs) ← takeByte bs
  let (channels, bs) ← takeByte bs
  let (aoffimmi, bs) ← readCode c.scalars bs
  let (sampler, bs) ← takeByte bs
  let (surface, bs) ← takeByte bs
  let (dst, bs) ← readCode c.raws bs
  let (numParams, bs) ← takeByte bs
  let (params, bs) ← readRaws c.raws numParams.toNat bs
  .ok ({ pnm := opByte.getLsbD 5
         cps := opByte.getLsbD 6
         nonuni := opByte.getLsbD 7
         execSize := exec.extractLsb' 0 3
         execBit3 := exec.getLsbD 3
         emctrl := exec.extractLsb' 4 4
         pred := predHigh ++ predLow
         channels := channels.extractLsb' 0 4
         channelsHigh := channels.extractLsb' 4 4
         aoffimmi, sampler, surface, dst, params }, bs)

/-- Decode one instruction at the front of `bs`; answers it and the bytes after it (R43, R44). -/
def decode (c : Codecs) (bs : List Byte) : Except DecodeError (Instr × List Byte) :=
  match bs with
  | [] => .error .truncated
  | [b] => if b = opcodeByte then .error .truncated else .error .notThisOpcode
  | b :: opByte :: bs =>
    if b = opcodeByte then
      match SampleOp.ofBits (opByte.extractLsb' 0 5) with
      | none => .error .unlistedOp
      | some op =>
        match readFields c opByte bs with
        | .error e => .error e
        | .ok (f, rest) => .ok (Instr.of op f, rest)
    else .error .notThisOpcode

/-! ## Encoding -/

/-- The code of an operand: the first of the table that spells it. -/
def codeOf {α : Type} [DecidableEq α] (table : List (List Byte × α)) (x : α) : Option (List Byte) :=
  (table.find? fun e => e.2 = x).map Prod.fst

/-- The codes of the operands, one after another. -/
def codesOf (table : List (List Byte × RawOperand)) : List RawOperand → Option (List Byte)
  | [] => some []
  | p :: ps =>
    match codeOf table p, codesOf table ps with
    | some code, some codes => some (code ++ codes)
    | _, _ => none

/-- The `Op` byte (R46 to R49). -/
def Fields.opByte (op : SampleOp) (f : Fields) : Byte :=
  BitVec.ofBool f.nonuni ++ BitVec.ofBool f.cps ++ BitVec.ofBool f.pnm ++ op.bits

/-- The `Exec_size` byte (R50 to R52). -/
def Fields.execByte (f : Fields) : Byte :=
  f.emctrl ++ BitVec.ofBool f.execBit3 ++ f.execSize

/-- The `Channels` byte (R54). -/
def Fields.channelsByte (f : Fields) : Byte :=
  f.channelsHigh ++ f.channels

/-- The bytes of an instruction, in the order of R43, `Pred` least significant byte first (R30). None
where the codecs have no code for an operand. -/
def encode (c : Codecs) (i : Instr) : Option (List Byte) :=
  let f := i.fields
  match codeOf c.scalars f.aoffimmi, codeOf c.raws f.dst, codesOf c.raws f.params with
  | some aoffimmi, some dst, some params =>
    some ([opcodeByte, f.opByte i.op, f.execByte, f.pred.extractLsb' 0 8, f.pred.extractLsb' 8 8,
      f.channelsByte] ++ aoffimmi ++ [f.sampler, f.surface] ++ dst ++
      [BitVec.ofNat 8 f.params.length] ++ params)
  | _, _, _ => none

/-! ## Programs as bytes -/

/-- Cut a run of bytes into instruction records: "the next instruction starts `Length(I)` bytes after
this one" (R22). `fuel` bounds the number of records; the number of bytes is enough. -/
def cutRecords (c : Codecs) : (fuel : Nat) → (bs : List Byte) → Except DecodeError (List (List Byte))
  | _, [] => .ok []
  | 0, _ :: _ => .error .truncated
  | fuel + 1, b :: bs =>
    match decode c (b :: bs) with
    | .error e => .error e
    | .ok (_, rest) =>
      match cutRecords c fuel rest with
      | .error e => .error e
      | .ok records => .ok ((b :: bs).take ((b :: bs).length - rest.length) :: records)

/-- The records of a program given as one run of bytes. -/
def cutProgram (c : Codecs) (bs : List Byte) : Except DecodeError (List (List Byte)) :=
  cutRecords c bs.length bs

/-! ## Words of the opcode table -/

/-- The bytes of a word of the opcode table, byte 0 its least significant (R67). -/
def wordBytes (nbits w : Nat) : List Byte :=
  (List.range ((nbits + 7) / 8)).map fun k => BitVec.ofNat 8 (w >>> (8 * k))

/-- The length of the longest code of a table. -/
def longestCode {α : Type} (table : List (List Byte × α)) : Nat :=
  table.foldl (fun m e => max m e.1.length) 0

/-- The length of the longest well-formed instruction under these codecs: fifteen parameters (R44,
R59). -/
def longestRecord (c : Codecs) : Nat :=
  9 + longestCode c.scalars + 16 * longestCode c.raws

/-- The record of an instruction whose table word is `w`: every bit above `nbits` is 0. -/
def tableRecord (c : Codecs) (nbits w : Nat) : List Byte :=
  wordBytes nbits w ++ List.replicate (longestRecord c - (nbits + 7) / 8) 0

/-- The instruction the decoder reads from a word of the opcode table, under the codecs of reset. -/
def decodeTableWord (nbits w : Nat) : Option Instr :=
  match decode Config.atReset.codecs (tableRecord Config.atReset.codecs nbits w) with
  | .ok (i, _) => some i
  | .error _ => none

/-! ## The conditions that the checks of R64 test -/

/-- What the checks know: the parameters, the types of the declared variables, and how many sampler and
surface variables there are. -/
structure Decls where
  cfg : Config
  varTypes : List ElemType
  numSamplers : Nat
  numSurfaces : Nat
  deriving DecidableEq, Repr

/-- `Var[id].type` (R15); an undeclared variable has none (log entry 11). -/
def Decls.typeOf (d : Decls) (p : RawOperand) : Option ElemType :=
  d.varTypes[p.id]?

/-- `Op[6] = 0`, or it is available (R48). -/
def cpsOk (d : Decls) (op : SampleOp) (f : Fields) : Bool :=
  !f.cps || (d.cfg.platformGeIcllp && op.cpsAvailable)

/-- `LaneEnable` accepts the mask control with this number of lanes (R21): under the recommended reading
`first + n` must not exceed 32; uninterpreted, it accepts every control (U27). -/
def laneControlOk (d : Decls) (f : Fields) : Bool :=
  match d.cfg.laneReading with
  | .uninterpreted => true
  | .recommended => firstLane f.emctrl + f.lanes ≤ 32

/-- `Aoffimmi` is not an immediate, or its bits 15..12 are 0 (R55). -/
def aoffimmiOk (f : Fields) : Bool :=
  match f.aoffimmi with
  | .imm value => value.extractLsb' 12 4 == 0
  | .var _ | .other _ _ => true

/-- `Td` is one of the six types (R58). -/
def dstTypeOk (d : Decls) (f : Fields) : Bool :=
  match d.typeOf f.dst with
  | some .hf | some .f | some .w | some .uw | some .d | some .ud => true
  | some .other | none => false

/-- The types of the supplied parameters (R62): all F; or, on ICLLP+, all HF. -/
def paramTypesOk (d : Decls) (f : Fields) : Bool :=
  f.params.all (fun p => d.typeOf p == some .f) ||
    (d.cfg.platformGeIcllp && f.params.all fun p => d.typeOf p == some .hf)

/-- `Dst` and every parameter start at a multiple of `GRF_BYTES` (R32). -/
def alignedOk (d : Decls) (f : Fields) : Bool :=
  (f.dst :: f.params).all fun p => p.off % d.cfg.grfBytes == 0

end Sys2Proof
end

