-- ==== Sys2Proof/WellFormed.lean ====
section
/-! DEFINITION. The well-formedness checks of `spec/30_encoding.md` R64, in the order of its table.

The first two rows of the table, `NotThisOpcode` and `UnlistedOp`, are the decoder's: a term of `Instr`
passes them. -/

namespace Sys2Proof

/-- Why a decoded instruction is refused (R64, R106). -/
inductive IllFormed where
  | cpsNotAvailable
  | badExecSize
  | execSizeBit3
  | badExecMaskOffset
  | noChannelEnabled
  | channelsHighBits
  | aoffimmiReserved
  | badSamplerIndex
  | badSurfaceIndex
  | badDstType
  | badNumParams
  | tooManyParams
  | badParamType
  | misalignedRawOperand
  deriving DecidableEq, Repr

/-- The table of R64: each check, in order, and whether it passes. -/
def checks (d : Decls) (i : Instr) : List (IllFormed × Bool) :=
  let f := i.fields
  [ (.cpsNotAvailable, cpsOk d i.op f),
    (.badExecSize, (listedLanes f.execSize).isSome),
    (.execSizeBit3, !f.execBit3),
    (.badExecMaskOffset, laneControlOk d f),
    (.noChannelEnabled, f.channels != 0),
    (.channelsHighBits, f.channelsHigh == 0),
    (.aoffimmiReserved, aoffimmiOk f),
    (.badSamplerIndex, f.sampler.toNat < d.numSamplers),
    (.badSurfaceIndex, f.surface.toNat < d.numSurfaces),
    (.badDstType, dstTypeOk d f),
    (.badNumParams, 1 ≤ f.params.length && f.params.length ≤ 15),
    (.tooManyParams, f.params.length ≤ i.op.count),
    (.badParamType, paramTypesOk d f),
    (.misalignedRawOperand, alignedOk d f) ]

/-- The first check that fails (R110). -/
def firstIllFormed (d : Decls) (i : Instr) : Option IllFormed :=
  ((checks d i).find? fun c => !c.2).map Prod.fst

/-- Every check of R64 passes. -/
abbrev WellFormed (d : Decls) (i : Instr) : Prop :=
  firstIllFormed d i = none

end Sys2Proof
end

