-- ==== Sys2Proof/Machine/State.lean ====
section
/-! DEFINITION. The state (`spec/10_state.md` R13), the reasons a step can stop (`spec/60_exceptions.md`
R106, R107), the launch and the reset state (R26, R119). -/

namespace Sys2Proof.Machine

open Sys2Proof

/-- Register-backed storage as (offset, byte) pairs, offsets strictly rising. An offset that is not
listed holds no value (R14, R26), so no entry can equal what it reads as. -/
abbrev Memory := List Host.Cell

/-- What an unlisted offset reads as: no value (R14, R26). -/
def Memory.unlisted : Option Byte := none

/-- The canonical form of a memory. -/
abbrev Memory.wf (m : Memory) : Prop :=
  m.Pairwise fun x y => x.1 < y.1

/-- A general variable (R14): its element type, its length in bytes, and the bytes that hold a
value. -/
structure Variable where
  type : ElemType
  size : Nat
  bytes : Memory
  deriving DecidableEq, Repr

/-- The bytes are in canonical form and inside the variable. -/
abbrev Variable.wf (v : Variable) : Prop :=
  v.bytes.wf ∧ ∀ c ∈ v.bytes, c.1 < v.size

/-- A sampler variable (R16), held as the sampler state its handle denotes, whose contents are opaque
(log entry 12). `stable` is the premise of the spec's decision D27 (R25), that nobody writes them during
the run (log entry 19). -/
structure Sampler where
  contents : List Byte
  stable : Bool
  deriving DecidableEq, Repr

/-- A surface variable (R17), held as the surface object its handle denotes (R29; log entry 12).
`stable` is the launch premise of R37 (b), "no agent writes this surface during the run" (log entry
19). -/
structure Surface where
  type : SurfaceType
  contents : List Byte
  stable : Bool
  deriving DecidableEq, Repr

/-- The faults of R107, a closed list. -/
inductive Fault where
  /-- Raised where a byte of a parameter's first `n` elements, of the `Aoffimmi` variable or a predicate
  bit that is read holds no value. Safe: the machine stops where the hardware may go on. -/
  | unwrittenRead
  /-- Raised where a parameter read or the writeback passes the end of its variable. Safe. -/
  | outOfVariable
  /-- Raised where the `Aoffimmi` value read from a variable has bits 15..12 not zero. Safe. -/
  | aoffimmiReservedBits
  /-- Raised by sample_b and sample_b_c where a lane's bias is outside [-16.0, 16.0] or a NaN. Safe. -/
  | biasOutOfRange
  /-- Raised where the written range of `Dst` meets storage the step reads, unless the overlap is
  allowed. Safe. -/
  | dstParamOverlap
  deriving DecidableEq, Repr

/-- The refusals. Each is safe: the model gives no meaning where the hardware may have one. -/
inductive Refusal where
  /-- The instruction has no meaning in this model; the dispatcher raises it. -/
  | notModelled (mnemonic : String)
  /-- The decoder rejects the record (R106); the step raises it. -/
  | undecodable (reason : DecodeError)
  /-- A check of R64 fails (R106, R74); every meaning raises it before anything else. -/
  | illFormed (reason : IllFormed)
  /-- There is no instruction at `pc`: the run is over (R121); the step raises it (log entry 6). -/
  | runOver
  deriving DecidableEq, Repr

/-- The state of the machine (R13). -/
structure State where
  /-- The parameters of R6; no step writes them (log entry 1). -/
  cfg : Config
  /-- The program text, a list of instruction records (R22, R40); no step writes it. -/
  program : List (List Byte)
  /-- The program counter, an index into `program` (R22). -/
  pc : Nat
  /-- The general variables (R14), a variable's id its position. -/
  vars : List Variable
  /-- The sampler variables (R16). -/
  smp : List Sampler
  /-- The surface variables (R17). -/
  srf : List Surface
  /-- The predicate variables (R18), a predicate's number its position. -/
  prd : List (List (Option Bool))
  /-- The execution mask of the thread (R21). -/
  em : BitVec 32
  /-- The stamp under which the next step draws (R9). The model's own field; log entry 18. -/
  draws : Nat
  /-- The fault mark (R24). -/
  faulted : Option Fault
  /-- The refusal mark (R24). -/
  refused : Option Refusal
  deriving DecidableEq, Repr

/-- What the checks of R64 know of a state. -/
def State.decls (s : State) : Decls where
  cfg := s.cfg
  varTypes := s.vars.map Variable.type
  numSamplers := s.smp.length
  numSurfaces := s.srf.length

/-- What the launch gives (R26, R119, R127). -/
structure Launch where
  cfg : Config
  program : List (List Byte)
  vars : List Variable
  smp : List Sampler
  srf : List Surface
  prd : List (List (Option Bool))
  em : BitVec 32
  deriving DecidableEq, Repr

/-- The launch state (R26): `pc` is 0 and neither mark is set. -/
def State.launch (l : Launch) : State where
  cfg := l.cfg
  program := l.program
  pc := 0
  vars := l.vars
  smp := l.smp
  srf := l.srf
  prd := l.prd
  em := l.em
  draws := 0
  faulted := none
  refused := none

/-- A launch that loads no program and declares no variable. What R26 leaves to the launch is DESIGN
CHOICE: log entries 2, 5, 9, 10 and 19. -/
def Launch.ofNothing : Launch where
  cfg := .atReset
  program := []
  vars := []
  smp := List.replicate 256 ⟨[], false⟩
  srf := List.replicate 256 ⟨.dim1, [], false⟩
  prd := []
  em := 0

/-- The machine right after reset: "There is no reset in the source. The model has a launch instead"
(R119). -/
def State.reset : State :=
  State.launch Launch.ofNothing

end Sys2Proof.Machine
end

