-- ==== Sys2Proof/Machine/Ops.lean ====
section
/-! DEFINITION. The named operations over storage and registers (`spec/00_scope.md` R9, `spec/10_state.md`
R14, R15), and what a fault or a refusal does to the state (`spec/60_exceptions.md` R106, R107, R111,
R118). -/

namespace Sys2Proof.Machine

open Sys2Proof

/-! ## Memory -/

/-- The byte at an offset. -/
def Memory.read : Memory → Nat → Option Byte
  | [], _ => Memory.unlisted
  | c :: m, a => if c.1 = a then some c.2 else Memory.read m a

/-- Write a byte at an offset, keeping the canonical form. -/
def Memory.write : Memory → Nat → Byte → Memory
  | [], a, b => [(a, b)]
  | c :: m, a, b =>
    if a < c.1 then (a, b) :: c :: m
    else if a = c.1 then (a, b) :: m
    else c :: Memory.write m a b

/-- Write several bytes, each at its offset from `base`, in order. -/
def Memory.writeAll (m : Memory) (base : Nat) (cells : List Host.Cell) : Memory :=
  cells.foldl (fun m c => m.write (base + c.1) c.2) m

/-! ## Byte order (R31): least significant byte at the lowest offset -/

/-- Byte `k` of an element. -/
def byteOf (e : Elem) (k : Nat) : Byte :=
  e.extractLsb' (8 * k) 8

/-- The element whose bytes are these. -/
def elemOfBytes : List Byte → Elem
  | [] => 0
  | b :: bs => (elemOfBytes bs) <<< 8 ||| b.setWidth 32

/-! ## Element types -/

/-- `sizeof(T)` (R6, R10). A type outside the six is refused before its size is used; log entries 13
and 29. -/
def elemSize : ElemType → Nat
  | .hf | .w | .uw => 2
  | .f | .d | .ud => 4
  | .other => 0

/-! ## Reading variables -/

/-- The length in bytes of `Var[id]`; an undeclared variable has no bytes. -/
def State.sizeOfVar (s : State) (id : Nat) : Nat :=
  (s.vars[id]?.map Variable.size).getD 0

/-- The byte at an offset of `Var[id]`, or no value. -/
def State.byteAt (s : State) (id a : Nat) : Option Byte :=
  match s.vars[id]? with
  | some v => v.bytes.read a
  | none => Memory.unlisted

/-- The bytes `a`, `a + 1`, ... of `Var[id]`, `n` of them; none if any holds no value. -/
def State.bytesAt (s : State) (id a : Nat) : (n : Nat) → Option (List Byte)
  | 0 => some []
  | n + 1 =>
    match s.byteAt id a, s.bytesAt id (a + 1) n with
    | some b, some bs => some (b :: bs)
    | _, _ => none

/-- `Elem(opnd, i, T)` (R9), the element of `size` bytes at index `i`; none if a byte of it holds no
value. -/
def State.elemAt (s : State) (p : RawOperand) (size i : Nat) : Option Elem :=
  (s.bytesAt p.id (p.off + i * size) size).map elemOfBytes

/-- The elements `i`, `i + 1`, ... of an operand, `n` of them; none if a byte of one holds no value. -/
def State.elemsAt (s : State) (p : RawOperand) (size : Nat) : (i n : Nat) → Option (List Elem)
  | _, 0 => some []
  | i, n + 1 =>
    match s.elemAt p size i, s.elemsAt p size (i + 1) n with
    | some e, some es => some (e :: es)
    | _, _ => none

/-- The type of `Var[id]` and its bytes, each a value or none; none if the variable is not declared. -/
def State.storageOf (s : State) (id : Nat) : Option (ElemType × List (Option Byte)) :=
  s.vars[id]?.map fun v => (v.type, (List.range v.size).map v.bytes.read)

/-- The element type of an operand, `Var[id].type` (R15). `WellFormed` refuses an undeclared one. -/
def State.typeOf (s : State) (p : RawOperand) : ElemType :=
  (s.decls.typeOf p).getD .other

/-! ## Writing variables -/

/-- `RegWrite(opnd, byteoff, n, v)` (R9) as the bytes it writes, each at its offset from the operand's
start. -/
def regWrite (byteoff n : Nat) (v : Elem) : List Host.Cell :=
  (List.range n).map fun k => (byteoff + k, byteOf v k)

/-- `RegHavoc(opnd, byteoff, n)` (R9) as the bytes it writes: each a draw. -/
def regHavoc (stamp byteoff n : Nat) : List Host.Cell :=
  (List.range n).map fun k => (byteoff + k, Config.drawByte stamp (byteoff + k))

/-- Put bytes into the variable of a raw operand, each at its offset from the operand's start. -/
def writeVar (vars : List Variable) (p : RawOperand) (cells : List Host.Cell) : List Variable :=
  vars.modify p.id fun v => { v with bytes := v.bytes.writeAll p.off cells }

/-! ## Raising a fault or a refusal

There is no trap entry and no return: "no state is saved, no mode changes, no vector is consulted, and
control goes nowhere" (R111, R112). A fault or a refusal is the step's outcome, and what it leaves is the
state of before with one mark set (R24, R106, R107, R118). -/

/-- The outcome of one step of this machine. -/
abbrev StepOutcome := Host.Outcome State Fault Refusal

/-- `raise Fault(reason)` (R9): the one way a meaning faults. -/
def raise (reason : Fault) : StepOutcome :=
  .fault reason

/-- `refuse(reason)` (R9): the one way a meaning or a step refuses. -/
def refuse (reason : Refusal) : StepOutcome :=
  .refused reason

/-- The state an outcome leaves (R24): the next state, or the state of before with the mark set and
nothing else written. -/
def State.record (s : State) : StepOutcome → State
  | .next t => t
  | .fault reason => { s with faulted := some reason }
  | .refused reason => { s with refused := some reason }

/-- Neither mark is set (R24). -/
abbrev State.unmarked (s : State) : Prop :=
  s.faulted = none ∧ s.refused = none

end Sys2Proof.Machine
end

