-- ==== Sys2Proof/Machine/Flags.lean ====
section
/-! DEFINITION. The enabled pixels (`spec/40_3d_sample_common.md` R75), from the execution mask
(`spec/10_state.md` R21) and the predicate (R20). The instruction "reads no flag and writes no flag,
condition code or status bit" (R23). -/

namespace Sys2Proof.Machine

open Sys2Proof

/-- `n` bits set. -/
def allLanes (n : Nat) : BitVec 16 :=
  BitVec.ofNat 16 (2 ^ n - 1)

/-- The recommended `LaneEnable` (R21): the `n` bits of the execution mask from `firstLane`, or every
lane under a `_NM` name. PRESUMED by the rule itself; log entry 14. -/
def maskFromEM (em : BitVec 32) (emctrl : BitVec 4) (n : Nat) : BitVec 16 :=
  if isNoMask emctrl then allLanes n
  else (em >>> firstLane emctrl).setWidth 16 &&& allLanes n

/-- `LaneEnable(state, ctrl, n)` (R21), `n` bits. -/
def laneEnable (cfg : Config) (em : BitVec 32) (emctrl : BitVec 4) (n : Nat) : BitVec 16 :=
  match cfg.laneReading with
  | .uninterpreted => Config.laneEnable em emctrl n &&& allLanes n
  | .recommended => maskFromEM em emctrl n

/-- Bit `lane` of predicate variable `id`; a bit that is not there holds no value (log entry 15). -/
def predBit (prd : List (List (Option Bool))) (id lane : Nat) : Option Bool :=
  match prd[id]? with
  | some bits => (bits[lane]?).join
  | none => none

/-- The bits `lane`, `lane + 1`, ... of a predicate variable, `n` of them; none if one holds no value. -/
def predBits (prd : List (List (Option Bool))) (id : Nat) : (lane n : Nat) → Option (List Bool)
  | _, 0 => some []
  | lane, n + 1 =>
    match predBit prd id lane, predBits prd id (lane + 1) n with
    | some b, some bs => some (b :: bs)
    | _, _ => none

/-- The number of the predicate variable, `pred16[11:0]`; 0 is "no predication" (R20). -/
def predNumber (pred : BitVec 16) : Nat :=
  (pred.extractLsb' 0 12).toNat

/-- The combine control, `pred16[14:13]`; 0 is "none" (R20). -/
def predControl (pred : BitVec 16) : BitVec 2 :=
  pred.extractLsb' 13 2

/-- The inversion bit, `pred16[15]` (R20). -/
def predInverts (pred : BitVec 16) : Bool :=
  pred.getLsbD 15

/-- A mask whose bit `i` is the `i`-th entry. -/
def maskOfBits : List Bool → BitVec 16
  | [] => 0
  | b :: bs => (maskOfBits bs) <<< 1 ||| (BitVec.ofBool b).setWidth 16

/-- The recommended `PredEval` (R20): no lane is masked without predication; under the control "none",
`pm[i] = Prd[id][first + i] xor pred16[15]`; under another control a free value. PRESUMED by the rule
itself; log entry 15. Bit 12 of `Pred`, of which R20 says nothing, is not read, whatever the predicate's
number: DESIGN CHOICE, the same entry. -/
def predFromVariable (prd : List (List (Option Bool))) (pred : BitVec 16) (emctrl : BitVec 4) (n : Nat) :
    Option (BitVec 16) :=
  if predNumber pred = 0 then some (allLanes n)
  else
    match predBits prd (predNumber pred) (firstLane emctrl) n with
    | none => none
    | some bits =>
      if predControl pred = 0 then some (maskOfBits (bits.map fun b => b ^^ predInverts pred))
      else some (Config.predCombine (predControl pred) (predInverts pred) bits &&& allLanes n)

/-- `PredEval(state, pred16, n)` (R20), `n` bits; none is the fault `UnwrittenRead`. -/
def predEval (cfg : Config) (prd : List (List (Option Bool))) (em : BitVec 32) (pred : BitVec 16)
    (emctrl : BitVec 4) (n : Nat) : Option (BitVec 16) :=
  match cfg.predReading with
  | .uninterpreted => (Config.predEval prd em pred emctrl n).map fun pm => pm &&& allLanes n
  | .recommended => predFromVariable prd pred emctrl n

/-- The enabled pixels, `en = em AND pm` (R75); log entry 16. -/
def enabledPixels (f : Fields) (s : State) : Except Fault (BitVec 16) :=
  match predEval s.cfg s.prd s.em f.pred f.emctrl f.lanes with
  | none => .error .unwrittenRead
  | some pm => .ok (laneEnable s.cfg s.em f.emctrl f.lanes &&& pm)

end Sys2Proof.Machine
end

