-- ==== Sys2Proof/Machine/Operands.lean ====
section
/-! DEFINITION. The operands of the instruction (`spec/40_3d_sample_common.md` sections 3 to 5): the texel
offsets, the parameters, the bias range, the meaning of the coordinates, and where the results go. -/

namespace Sys2Proof.Machine

open Sys2Proof

/-! ## Texel offsets (R76) -/

/-- A value that was read, or the fault of reading what holds none (R19). -/
def orUnwritten : Option (BitVec 16) → Except Fault (BitVec 16)
  | some value => .ok value
  | none => .error .unwrittenRead

/-- `ReadScalar16` of an operand about which nothing is assumed (R6, the spec's decision D4; log entry
8): it depends on the operand and on the variables it names (R27), and has a value or faults. -/
def openScalar16 (s : State) (opnd : ScalarOperand) : Option (BitVec 16) :=
  Config.readScalar16 opnd (opnd.names.map s.storageOf)

/-- `ReadScalar16(state, opnd)` (R19): where it is taken as described, an immediate, or the first element
of a variable read as 16 bits; otherwise uninterpreted (log entry 8). -/
def readScalar16 (s : State) (opnd : ScalarOperand) : Except Fault (BitVec 16) :=
  match s.cfg.scalarReading, opnd with
  | .recommended, .imm value => .ok value
  | .recommended, .var id => orUnwritten ((s.bytesAt id 0 2).map fun bs => (elemOfBytes bs).setWidth 16)
  | .recommended, .other _ _ | .uninterpreted, _ => orUnwritten (openScalar16 s opnd)

/-- The three texel offsets. -/
structure Offsets where
  u : Int
  v : Int
  r : Int
  deriving DecidableEq, Repr

/-- `sext_4(v)` (R9). -/
def sext4 (v : BitVec 4) : Int :=
  v.toInt

/-- The offsets of an `Aoffimmi` value (R55): U in bits 11..8, V in bits 7..4, R in bits 3..0. -/
def offsetsOf (a : BitVec 16) : Offsets where
  u := sext4 (a.extractLsb' 8 4)
  v := sext4 (a.extractLsb' 4 4)
  r := sext4 (a.extractLsb' 0 4)

/-- `a[15:12]`, "reserved. Must be zero" (R55). -/
def reservedBits (a : BitVec 16) : BitVec 4 :=
  a.extractLsb' 12 4

/-- Read and unpack `Aoffimmi` (R76). -/
def readOffsets (f : Fields) (s : State) : Except Fault Offsets :=
  match readScalar16 s f.aoffimmi with
  | .error reason => .error reason
  | .ok a => if reservedBits a = 0 then .ok (offsetsOf a) else .error .aoffimmiReservedBits

/-! ## Parameters (R78, R79) -/

/-- `Tp`, the common type of the supplied parameters (R62): that of position 0, which is always
present (R61). -/
def paramType (f : Fields) (s : State) : ElemType :=
  match f.params with
  | p :: _ => s.typeOf p
  | [] => .other

/-- Read one supplied parameter in all `n` lanes (R78), "the disabled ones too" (log entry 27). -/
def readParam (s : State) (size n : Nat) (p : RawOperand) : Except Fault (List Elem) :=
  if p.off + n * size ≤ s.sizeOfVar p.id then
    match s.elemsAt p size 0 n with
    | some es => .ok es
    | none => .error .unwrittenRead
  else .error .outOfVariable

/-- Read the supplied parameters in position order (R78) and give every skipped one the value 0 in every
lane (R79). -/
def readParams (s : State) (size n : Nat) :
    List ParamName → List RawOperand → Except Fault (List (ParamName × List Elem))
  | [], _ => .ok []
  | name :: names, [] =>
    match readParams s size n names [] with
    | .error reason => .error reason
    | .ok rest => .ok ((name, List.replicate n 0) :: rest)
  | name :: names, p :: ps =>
    match readParam s size n p with
    | .error reason => .error reason
    | .ok es =>
      match readParams s size n names ps with
      | .error reason => .error reason
      | .ok rest => .ok ((name, es) :: rest)

/-! ## The range of a bias (R80) -/

/-- The magnitude of an IEEE 754 number of the given field widths, in units of its smallest positive
value; none for an infinity or a NaN (R10). -/
def magnitude (manBits expBits bits : Nat) : Option Nat :=
  let fraction := bits % 2 ^ manBits
  let exponent := bits / 2 ^ manBits % 2 ^ expBits
  if exponent = 2 ^ expBits - 1 then none
  else if exponent = 0 then some fraction
  else some ((2 ^ manBits + fraction) * 2 ^ (exponent - 1))

/-- `-16.0 <= x <= 16.0` for an IEEE 754 number of the given field widths: 16 is `2 ^ 4`, and the
smallest positive value is `2 ^ (2 - 2 ^ (expBits - 1) - manBits)`. -/
def within16 (manBits expBits bits : Nat) : Bool :=
  match magnitude manBits expBits bits with
  | none => false
  | some m => m ≤ 2 ^ (4 + (2 ^ (expBits - 1) - 2) + manBits)

/-- A bias "with range of [-16.0, 16.0]" (R80): binary32 for F, binary16 for HF (R10). Another type is
refused before a bias is read (R62). -/
def biasInRange (tp : ElemType) (e : Elem) : Bool :=
  match tp with
  | .f => within16 23 8 e.toNat
  | .hf => within16 10 5 (e.toNat % 2 ^ 16)
  | .w | .uw | .d | .ud | .other => false

/-- Every lane of a bias, if the operation has one, is in range (R80). -/
def biasOk (tp : ElemType) (params : List (ParamName × List Elem)) : Bool :=
  params.all fun p => p.1 != .bias || p.2.all (biasInRange tp)

/-! ## Sampler and surface (R77) -/

/-- `smp = Smp[I.sampler]`: the contents of the sampler state that `SampleFn` sees. They are those of the
launch under the premise that nobody writes them during the run; otherwise a draw (R25, the spec's
decision D27; log entry 19). `WellFormed` refuses an index outside the table (R16). -/
def samplerContents (f : Fields) (s : State) : List Byte :=
  match s.smp[f.sampler.toNat]? with
  | some smp => if smp.stable then smp.contents else Config.drawSampler s.draws
  | none => []

/-- `srf = Srf[I.surface]`: the type of the surface. `WellFormed` refuses an index outside the table
(R17). -/
def surfaceType (f : Fields) (s : State) : SurfaceType :=
  (s.srf[f.surface.toNat]?.map Surface.type).getD .dim1

/-- The surface contents that `SampleFn` sees (R37 (b)): the launch contents under the premise that no
agent writes the surface during the run; otherwise a draw (log entry 19). -/
def surfaceContents (f : Fields) (s : State) : List Byte :=
  match s.srf[f.surface.toNat]? with
  | some srf => if srf.stable then srf.contents else Config.drawSurface s.draws
  | none => []

/-- What a coordinate means on a surface type (R82). -/
inductive CoordMeaning where
  | normalizedX
  | normalizedY
  | normalizedZ
  | unnormalizedArrayIndex
  | ignored
  deriving DecidableEq, Repr

/-- The table of R82, "informative for the model": none for a parameter that is no coordinate. -/
def coordMeaning (t : SurfaceType) (name : ParamName) : Option CoordMeaning :=
  match name with
  | .u => some .normalizedX
  | .v =>
    match t with
    | .dim1 | .dim1Array => some .unnormalizedArrayIndex
    | .dim2 | .dim2Array | .dim3 | .cube => some .normalizedY
  | .r =>
    match t with
    | .dim1 | .dim1Array => some .ignored
    | .dim2 | .dim2Array => some .unnormalizedArrayIndex
    | .dim3 | .cube => some .normalizedZ
  | .ai =>
    match t with
    | .dim1 | .dim1Array | .dim2 | .dim2Array | .dim3 => some .ignored
    | .cube => some .unnormalizedArrayIndex
  | .bias | .lod | .ref | .dudx | .dudy | .dvdx | .dvdy | .drdx | .drdy => none

/-! ## The layout of `Dst` (R83, R86, R87, R88) -/

/-- `ceil_div(a, b)` (R7). -/
def ceilDiv (a b : Nat) : Nat :=
  (a + b - 1) / b

/-- `popcount(v[k-1:0])` (R7, R83). -/
def popcountBelow (v : BitVec 4) (k : Nat) : Nat :=
  ((List.range k).filter fun i => v.getLsbD i).length

/-- `Td`, the type of `Dst` (R58). -/
def dstType (f : Fields) (s : State) : ElemType :=
  s.typeOf f.dst

/-- `sd = sizeof(Td)`. -/
def dstSize (f : Fields) (s : State) : Nat :=
  elemSize (dstType f s)

/-- `S`, the bytes from one channel block to the next (R83). -/
def stride (f : Fields) (s : State) : Nat :=
  ceilDiv (f.lanes * dstSize f s) s.cfg.grfBytes * s.cfg.grfBytes

/-- `blk(c)`, the number of enabled channels before `c` (R83). -/
def blockNumber (f : Fields) (c : Channel) : Nat :=
  popcountBelow f.channels c.bit

/-- `m`, the number of channel blocks (R86). -/
def numBlocks (f : Fields) : Nat :=
  popcountBelow f.channels 4

/-- Where block `blk(c)` starts, from the start of `Dst` (R83). -/
def blockStart (f : Fields) (s : State) (c : Channel) : Nat :=
  blockNumber f c * stride f s

/-- Where the pixel null mask register starts, from the start of `Dst` (R86). -/
def nullStart (f : Fields) (s : State) : Nat :=
  numBlocks f * stride f s

/-- `WritebackBytes(I)` (R87). -/
def writebackBytes (f : Fields) (s : State) : Nat :=
  numBlocks f * stride f s + if f.pnm then s.cfg.grfBytes else 0

/-- The byte ranges of `la` bytes from `a` and of `lb` bytes from `b` meet. -/
def rangesMeet (a la b lb : Nat) : Bool :=
  a < b + lb && b < a + la

/-- The written range of `Dst` meets the first `n * sp` bytes of a supplied parameter in the same
variable, or the bytes of a variable `Aoffimmi` names (R88). -/
def dstMeetsRead (f : Fields) (s : State) : Bool :=
  (f.params.any fun p =>
    p.id == f.dst.id &&
      rangesMeet f.dst.off (writebackBytes f s) p.off (f.lanes * elemSize (paramType f s))) ||
    f.aoffimmi.names.any fun id =>
      id == f.dst.id && rangesMeet f.dst.off (writebackBytes f s) 0 (s.sizeOfVar id)

/-- The writeback fits in `Dst` (R87) and does not overlap what was read, unless that is allowed (R88). -/
def checkWriteback (f : Fields) (s : State) : Except Fault Unit :=
  if f.dst.off + writebackBytes f s ≤ s.sizeOfVar f.dst.id then
    if !s.cfg.allowDstParamOverlap && dstMeetsRead f s then .error .dstParamOverlap else .ok ()
  else .error .outOfVariable

end Sys2Proof.Machine
end

