-- ==== Sys2Proof/Machine/Common.lean ====
section
/-! DEFINITION. The step common to all eleven operations (`spec/40_3d_sample_common.md` R73): what it
reads and checks (parts 1 to 6), then the sampling function and what it writes (parts 7 to 10). "Every
check that can fault comes before the first write". -/

namespace Sys2Proof.Machine

open Sys2Proof

/-- Parts 1 to 6 of R73: the request that `SampleFn` gets (R81), or the first fault in the order of
R110. -/
def gather (op : SampleOp) (f : Fields) (s : State) : Except Fault SampleReq :=
  match enabledPixels f s with
  | .error reason => .error reason
  | .ok en =>
  match readOffsets f s with
  | .error reason => .error reason
  | .ok offsets =>
  match readParams s (elemSize (paramType f s)) f.lanes (paramNames op) f.params with
  | .error reason => .error reason
  | .ok params =>
  if biasOk (paramType f s) params then
    match checkWriteback f s with
    | .error reason => .error reason
    | .ok () =>
      .ok { op, cps := f.cps, nonuni := f.nonuni, pnm := f.pnm, n := f.lanes, en,
            channels := f.channels, offU := offsets.u, offV := offsets.v, offR := offsets.r,
            surfaceType := surfaceType f s, tp := paramType f s, td := dstType f s, params }
  else .error .biasOutOfRange

/-- Part 7 of R73: `SampleFn` is called once for the whole instruction (R81). The choice is the stamp of
the step's draws (log entry 17). -/
def sampled (f : Fields) (s : State) (req : SampleReq) : SampleRes :=
  Config.sampleFn req (surfaceContents f s) (samplerContents f s) s.draws

/-- `Ret(c, i)` (R84): what an operation returns for a channel and a pixel, from what `SampleFn` returned
and the stamp of the step's draws. -/
abbrev Ret := SampleRes → Nat → Channel → Nat → Elem

/-- `Ret(c, i) = res.data[c][i]`, that of every operation but `LOD` (R84). -/
def retData : Ret :=
  fun res _ c i => res.data c i

/-- The block of one channel (R84, R85): the elements of the enabled pixels, and the undefined remainder
of the block's registers, drawn "whether or not any pixel is enabled". -/
def channelCells (f : Fields) (s : State) (en : BitVec 16) (ret : Channel → Nat → Elem) (c : Channel) :
    List Host.Cell :=
  if f.enables c then
    (List.range f.lanes).flatMap (fun i =>
      if en.getLsbD i then
        regWrite (blockStart f s c + i * dstSize f s) (dstSize f s) (ret c i)
      else []) ++
    regHavoc s.draws (blockStart f s c + f.lanes * dstSize f s)
      (stride f s - f.lanes * dstSize f s)
  else []

/-- `d[i] = b` (R86). -/
def setBit (d : BitVec 32) (i : Nat) (b : Bool) : BitVec 32 :=
  if b then d ||| BitVec.twoPow 32 i else d &&& ~~~BitVec.twoPow 32 i

/-- The first dword of the pixel null mask register (R86): bit `i` of an enabled pixel `i` is
`res.null[i]`, every other bit is drawn. -/
def nullDWord (n : Nat) (en : BitVec 16) (null : Nat → Bool) (drawn : BitVec 32) : BitVec 32 :=
  (List.range n).foldl (fun d i => if en.getLsbD i then setBit d i (null i) else d) drawn

/-- The pixel null mask register (R86). -/
def nullCells (f : Fields) (s : State) (en : BitVec 16) (null : Nat → Bool) : List Host.Cell :=
  if f.pnm then
    regWrite (nullStart f s) 4 (nullDWord f.lanes en null (Config.drawDWord s.draws)) ++
      regHavoc s.draws (nullStart f s + 4) (s.cfg.grfBytes - 4)
  else []

/-- Parts 8 and 9 of R73: every byte written to `Dst`, at its offset from the start of `Dst`. -/
def writebackCells (ret : Ret) (f : Fields) (s : State) (req : SampleReq) : List Host.Cell :=
  Channel.all.flatMap (channelCells f s req.en (ret (sampled f s req) s.draws)) ++
    nullCells f s req.en (sampled f s req).null

/-- Parts 7 to 10 of R73: "No state other than `Dst` and `pc` is written" (R89), but for the stamp of
the draws. -/
def commit (ret : Ret) (f : Fields) (s : State) (req : SampleReq) : State :=
  { s with
    vars := writeVar s.vars f.dst (writebackCells ret f s req)
    pc := s.pc + 1
    draws := s.draws + 1 }

/-- `Step(I)` of `spec/41_3d_sample_ops.md`: an ill-formed instruction is refused (R74), and a well-formed
one faults with nothing written (R118) or completes (R73). -/
def sampleStep (op : SampleOp) (ret : Ret) (f : Fields) (s : State) : StepOutcome :=
  match firstIllFormed s.decls (Instr.of op f) with
  | some reason => refuse (.illFormed reason)
  | none =>
    match gather op f s with
    | .error reason => raise reason
    | .ok req => .next (commit ret f s req)

end Sys2Proof.Machine
end

