-- ==== Sys2Proof/Machine/Compare.lean ====
section
/-! DEFINITION. The meanings of the operations with a reference value (`spec/41_3d_sample_ops.md` R97, R99,
R100, R102, R104). -/

namespace Sys2Proof.Machine

open Sys2Proof

/-- `sample_c` (R97): parameters ref, u, v, r, ai. -/
def execSampleC (f : Fields) (s : State) : StepOutcome :=
  sampleStep .sampleC retData f s

/-- `sample_b_c` (R99): parameters ref, bias, u, v, r, ai; faults on a bias out of range (R80). -/
def execSampleBC (f : Fields) (s : State) : StepOutcome :=
  sampleStep .sampleBC retData f s

/-- `sample_l_c` (R100): parameters ref, lod, u, v, r, ai. -/
def execSampleLC (f : Fields) (s : State) : StepOutcome :=
  sampleStep .sampleLC retData f s

/-- `sample_d_c` (R102): ref, then the ten parameters of `sample_d`. -/
def execSampleDC (f : Fields) (s : State) : StepOutcome :=
  sampleStep .sampleDC retData f s

/-- `sample_c_lz` (R104): parameters ref, u, v, r, ai. -/
def execSampleCLz (f : Fields) (s : State) : StepOutcome :=
  sampleStep .sampleCLz retData f s

end Sys2Proof.Machine
end

