-- ==== Sys2Proof/Machine/Lod.lean ====
section
/-! DEFINITION. The meaning of `LOD` (`spec/41_3d_sample_ops.md` R101). -/

namespace Sys2Proof.Machine

open Sys2Proof

/-- What `LOD` returns (R101): "R channel contains the clamped LOD values", "G channel contains the unclamped
LOD values", "B and A channels have undefined values": draws. -/
def retLod : Ret :=
  fun res stamp c i =>
    match c with
    | .R | .G => res.data c i
    | .B | .A => Config.drawElem stamp c i

/-- `LOD` (R101): parameters u, v, r, ai. -/
def execLod (f : Fields) (s : State) : StepOutcome :=
  sampleStep .lod retLod f s

end Sys2Proof.Machine
end

