-- ==== Sys2Proof/Machine/Sample.lean ====
section
/-! DEFINITION. The meanings of the operations without a reference value that return sampled data
(`spec/41_3d_sample_ops.md` R94, R95, R96, R98, R103). -/

namespace Sys2Proof.Machine

open Sys2Proof

/-- `sample` (R94): parameters u, v, r, ai. -/
def execSample (f : Fields) (s : State) : StepOutcome :=
  sampleStep .sample retData f s

/-- `sample_b` (R95): parameters bias, u, v, r, ai; faults on a bias out of range (R80). -/
def execSampleB (f : Fields) (s : State) : StepOutcome :=
  sampleStep .sampleB retData f s

/-- `sample_l` (R96): parameters lod, u, v, r, ai. -/
def execSampleL (f : Fields) (s : State) : StepOutcome :=
  sampleStep .sampleL retData f s

/-- `sample_d` (R98): each coordinate followed by its two gradients, then ai. -/
def execSampleD (f : Fields) (s : State) : StepOutcome :=
  sampleStep .sampleD retData f s

/-- `sample_lz` (R103): parameters u, v, r, ai; "the difference is carried by `req.op` alone". -/
def execSampleLz (f : Fields) (s : State) : StepOutcome :=
  sampleStep .sampleLz retData f s

end Sys2Proof.Machine
end

