-- ==== Sys2Proof/Machine/Dispatch.lean ====
section
/-! DEFINITION. The meaning of each instruction, one arm per constructor. -/

namespace Sys2Proof.Machine

open Sys2Proof

def exec (i : Instr) (s : State) : Host.Outcome State Fault Refusal :=
  match i with
  | .sample f => Sys2Proof.Machine.execSample f s
  | .sampleB f => Sys2Proof.Machine.execSampleB f s
  | .sampleL f => Sys2Proof.Machine.execSampleL f s
  | .sampleC f => Sys2Proof.Machine.execSampleC f s
  | .sampleD f => Sys2Proof.Machine.execSampleD f s
  | .sampleBC f => Sys2Proof.Machine.execSampleBC f s
  | .sampleLC f => Sys2Proof.Machine.execSampleLC f s
  | .lod f => Sys2Proof.Machine.execLod f s
  | .sampleDC f => Sys2Proof.Machine.execSampleDC f s
  | .sampleLz f => Sys2Proof.Machine.execSampleLz f s
  | .sampleCLz f => Sys2Proof.Machine.execSampleCLz f s

end Sys2Proof.Machine
end

