-- ==== Sys2Proof/Machine/Fetch.lean ====
section
/-! DEFINITION. Fetching an instruction (`spec/10_state.md` R22): the record at `pc`, decoded. -/

namespace Sys2Proof.Machine

open Sys2Proof

/-- The instruction at `pc`, or why there is none: the run is over (R121; log entry 6), or the decoder
rejects the record (R106). Bytes after the instruction in its record are not read (log entry 33). -/
def fetch (s : State) : Except Refusal Instr :=
  match s.program[s.pc]? with
  | none => .error .runOver
  | some record =>
    match decode s.cfg.codecs record with
    | .error reason => .error (.undecodable reason)
    | .ok (i, _) => .ok i

/-- A program with `record` at index `k` and nothing else changed; a program that is shorter than `k` is
first filled up with empty records, which spell no instruction. -/
def placeRecord (program : List (List Byte)) (k : Nat) (record : List Byte) : List (List Byte) :=
  program.take k ++ List.replicate (k - program.length) [] ++ record :: program.drop (k + 1)

end Sys2Proof.Machine
end

