-- ==== Sys2Proof/Machine/Step.lean ====
section
/-! DEFINITION. One step of the machine (`spec/00_scope.md` R11), and the placing of the next instruction. -/

namespace Sys2Proof.Machine

open Sys2Proof

/-- One step: a state with a mark set "has no further step" (R111) and answers its mark again (log entry
22); otherwise the instruction at `pc` is fetched (R22) and has its meaning. -/
def step (s : State) : Host.Outcome State Fault Refusal :=
  match s.faulted, s.refused with
  | some reason, _ => raise reason
  | none, some reason => refuse reason
  | none, none =>
    match fetch s with
    | .error reason => refuse reason
    | .ok i => exec i s

/-- The state with the instruction of an opcode-table word placed at `pc`, and no mark set, so that the
next step runs it (log entry 28). -/
def State.withFetchWord (s : State) (nbits w : Nat) : State :=
  { s with
    program := placeRecord s.program s.pc (tableRecord s.cfg.codecs nbits w)
    faulted := none
    refused := none }

end Sys2Proof.Machine
end

