-- ==== Sys2Proof/Machine/Text.lean ====
section
/-! DEFINITION. The part of the text syntax that the spec fixes (`spec/30_encoding.md` R68 to R70): the
mnemonic and the optional suffixes of an instruction. The spelling of operands is not in the source
(R71), so there is no parser of whole lines. -/

namespace Sys2Proof.Machine

open Sys2Proof

/-- The text mnemonic of each operation (R69, C9). -/
def mnemonic : SampleOp → String
  | .sample => "SAMPLE_3d"
  | .sampleB => "SAMPLE_B"
  | .sampleL => "SAMPLE_L"
  | .sampleC => "SAMPLE_C"
  | .sampleD => "SAMPLE_D"
  | .sampleBC => "SAMPLE_B_C"
  | .sampleLC => "SAMPLE_L_C"
  | .lod => "LOD"
  | .sampleDC => "SAMPLE_D_C"
  | .sampleLz => "SAMPLE_LZ"
  | .sampleCLz => "SAMPLE_C_LZ"

/-- The suffixes of an instruction, "in the fixed order null mask, cps, divS" (R70). That `.divS` is
`Op[7]` is the spec's decision D32 (log entry 31). -/
def suffixes (f : Fields) : List String :=
  (if f.pnm then [".pixel_null_mask"] else []) ++ (if f.cps then [".cps"] else []) ++
    (if f.nonuni then [".divS"] else [])

/-- The mnemonic of an instruction with its suffixes (R68, R70). -/
def textHead (i : Instr) : List String :=
  mnemonic i.op :: suffixes i.fields

/-- The operation that a text mnemonic spells (R69). -/
def opOfMnemonic (m : String) : Option SampleOp :=
  SampleOp.all.find? fun op => mnemonic op == m

/-- The operation, `Op[5]`, `Op[6]` and `Op[7]` that a mnemonic with its suffixes spells (R68 to R70). -/
def readTextHead : List String → Option (SampleOp × Bool × Bool × Bool)
  | [] => none
  | m :: rest =>
    let pnm := rest.head? == some ".pixel_null_mask"
    let rest := if pnm then rest.tail else rest
    let cps := rest.head? == some ".cps"
    let rest := if cps then rest.tail else rest
    let nonuni := rest.head? == some ".divS"
    let rest := if nonuni then rest.tail else rest
    match opOfMnemonic m, rest with
    | some op, [] => some (op, pnm, cps, nonuni)
    | _, _ => none

end Sys2Proof.Machine
end

