-- ==== Sys2Proof/Safety.lean ====
section
/-! DEFINITION. What counts as a safe run, in the terms the claims use: the invariant, when an instruction
completes (`spec/70_reset_and_hazards.md` R120), the request it must make of the sampling function
(`spec/40_3d_sample_common.md` R75 to R81), what it leaves alone (`spec/10_state.md` R27), and named
properties of the sampling function (R81, R82) that a claim may assume. -/

namespace Sys2Proof.Machine

open Sys2Proof

/-- The bytes of every variable are in canonical form and inside it, `pc` is at most the length of the
program (R121), and there are at most 256 sampler and surface variables (R6). -/
structure StateInv (s : State) : Prop where
  vars : ∀ v ∈ s.vars, v.wf
  pc : s.pc ≤ s.program.length
  smp : s.smp.length ≤ 256
  srf : s.srf.length ≤ 256

/-- The run is over (R121): `pc` is the length of the program and no mark is set. -/
abbrev State.final (s : State) : Prop :=
  s.pc = s.program.length ∧ s.unmarked

/-- The bytes neither begin with a code of the table nor end inside one (R106). -/
def SpellsNoCode {α : Type} (table : List (List Byte × α)) (bs : List Byte) : Prop :=
  ∀ e ∈ table, ¬ e.1 <+: bs ∧ ¬ bs <+: e.1

/-- The number of bytes of a supplied parameter that are read, `n * sizeof(Tp)` (R33, R78). -/
def paramBytes (f : Fields) (s : State) : Nat :=
  f.lanes * elemSize (paramType f s)

/-- Byte `a` of variable `id` is one of a supplied parameter's first `n` elements (R27, R78). -/
def InParam (f : Fields) (s : State) (id a : Nat) : Prop :=
  ∃ p ∈ f.params, p.id = id ∧ p.off ≤ a ∧ a < p.off + paramBytes f s

/-- Reading `Aoffimmi` depends on byte `a` of variable `id` (R19): one of the first two bytes of a variable
that is read as R19 describes, or any byte of a variable named by an operand whose value is open. -/
def ScalarReads (s : State) (opnd : ScalarOperand) (id a : Nat) : Prop :=
  match s.cfg.scalarReading, opnd with
  | .recommended, .imm _ => False
  | .recommended, .var v => id = v ∧ a < 2
  | .recommended, .other _ _ | .uninterpreted, _ => id ∈ opnd.names ∧ a < s.sizeOfVar id

/-- The step reads byte `a` of variable `id` (R27): a byte of a parameter, or of `Aoffimmi`. -/
def ReadsByte (f : Fields) (s : State) (id a : Nat) : Prop :=
  InParam f s id a ∨ ScalarReads s f.aoffimmi id a

/-- Byte `a` of variable `id` is storage that `Dst` must keep off (R88): a byte of a parameter, or any
byte of a variable that `Aoffimmi` names. -/
def KeptApart (f : Fields) (s : State) (id a : Nat) : Prop :=
  InParam f s id a ∨ (id ∈ f.aoffimmi.names ∧ a < s.sizeOfVar id)

/-- Byte `a` of variable `id` lies in the writeback (R27, R87). -/
def InWriteback (f : Fields) (s : State) (id a : Nat) : Prop :=
  id = f.dst.id ∧ f.dst.off ≤ a ∧ a < f.dst.off + writebackBytes f s

/-- `Aoffimmi` can be read, and its bits 15..12 are 0 (R76, R120 (c)). -/
def OffsetsReady (s : State) (opnd : ScalarOperand) : Prop :=
  match s.cfg.scalarReading, opnd with
  | .recommended, .imm a => reservedBits a = 0
  | .recommended, .var id =>
    ∃ low high, s.byteAt id 0 = some low ∧ s.byteAt id 1 = some high ∧ high.extractLsb' 4 4 = 0
  | .recommended, .other _ _ | .uninterpreted, _ => ∃ a, openScalar16 s opnd = some a ∧ reservedBits a = 0

/-- Nothing is assumed of the value of a scalar operand (R6, R19): it is of a kind that R19 does not
describe, or `ReadScalar16` is uninterpreted. -/
def ScalarIsOpen (s : State) (opnd : ScalarOperand) : Prop :=
  match s.cfg.scalarReading, opnd with
  | .recommended, .imm _ | .recommended, .var _ => False
  | .recommended, .other _ _ | .uninterpreted, _ => True

/-- Everything that an instruction of operation `op` reads can be read and is admitted: the conditions of
parts 1 to 4 of R73. -/
structure InputsReady (op : SampleOp) (f : Fields) (s : State) : Prop where
  /-- Every check of R64 passes (R74). -/
  wellFormed : WellFormed s.decls (Instr.of op f)
  /-- Every predicate bit that is read holds a value (R120 (d)). -/
  predicate : (predEval s.cfg s.prd s.em f.pred f.emctrl f.lanes).isSome = true
  /-- `Aoffimmi` (R120 (c)). -/
  offsets : OffsetsReady s f.aoffimmi
  /-- Every supplied parameter lies inside its variable (R78). -/
  paramsInside : ∀ p ∈ f.params, p.off + paramBytes f s ≤ s.sizeOfVar p.id
  /-- Every supplied parameter has been written, in all `n` lanes (R120 (b)). -/
  paramsWritten : ∀ p ∈ f.params, ∀ k < paramBytes f s, (s.byteAt p.id (p.off + k)).isSome = true
  /-- Every lane of a supplied bias is in range (R80). -/
  bias : ∀ p, (ParamName.bias, p) ∈ (paramNames op).zip f.params →
    ∀ i < f.lanes, ∀ e, s.elemAt p (elemSize (paramType f s)) i = some e →
      biasInRange (paramType f s) e = true

/-- What must hold for an instruction of operation `op` to complete (R120, R88). -/
structure Ready (op : SampleOp) (f : Fields) (s : State) : Prop extends InputsReady op f s where
  /-- `Dst` is large enough (R120 (e), R87). -/
  fits : f.dst.off + writebackBytes f s ≤ s.sizeOfVar f.dst.id
  /-- The writeback meets nothing that was read, unless that is allowed (R88). -/
  apart : s.cfg.allowDstParamOverlap = true ∨
    ∀ a, InWriteback f s f.dst.id a → ¬ KeptApart f s f.dst.id a

/-- The request that R73 to R81 fix for an instruction of operation `op`. -/
structure IsRequest (op : SampleOp) (f : Fields) (s : State) (req : SampleReq) : Prop where
  operation : req.op = op
  /-- R92. -/
  cps : req.cps = f.cps
  /-- R91. -/
  nonuni : req.nonuni = f.nonuni
  pnm : req.pnm = f.pnm
  n : req.n = f.lanes
  channels : req.channels = f.channels
  /-- `en = em AND pm` (R75). -/
  en : ∃ pm, predEval s.cfg s.prd s.em f.pred f.emctrl f.lanes = some pm ∧
    req.en = laneEnable s.cfg s.em f.emctrl f.lanes &&& pm
  /-- U from bits 11..8, V from bits 7..4, R from bits 3..0 of `Aoffimmi` (R76). -/
  offsets : ∃ a, readScalar16 s f.aoffimmi = .ok a ∧ req.offU = (a.extractLsb' 8 4).toInt ∧
    req.offV = (a.extractLsb' 4 4).toInt ∧ req.offR = (a.extractLsb' 0 4).toInt
  /-- R77. -/
  surface : ∃ srf, s.srf[f.surface.toNat]? = some srf ∧ req.surfaceType = srf.type
  tp : req.tp = paramType f s
  td : req.td = s.typeOf f.dst
  /-- "an entry for every name of the operation" (R79, R81). -/
  names : req.params.map Prod.fst = paramNames op
  /-- A supplied parameter has the elements read from storage, all `n` lanes (R78). -/
  supplied : ∀ (k : Nat) (p : RawOperand), f.params[k]? = some p →
    ∃ name es, req.params[k]? = some (name, es) ∧ es.length = f.lanes ∧
      ∀ i < f.lanes, es[i]? = s.elemAt p (elemSize (paramType f s)) i
  /-- A skipped parameter is 0 in every lane (R79). -/
  skipped : ∀ (k : Nat) (name : ParamName) (es : List Elem), f.params.length ≤ k →
    req.params[k]? = some (name, es) → es = List.replicate f.lanes 0

/-- `res` is what `SampleFn` returns for the request, the contents of the surface and of the sampler
state, and some choice (R77, R81). The contents of each are those of the launch if nobody writes them
during the run, and otherwise unconstrained (R37 (b), R25, the spec's decision D27). -/
def IsSampleOf (f : Fields) (s : State) (req : SampleReq) (res : SampleRes) : Prop :=
  ∃ srf smp surface sampler choice, s.srf[f.surface.toNat]? = some srf ∧
    s.smp[f.sampler.toNat]? = some smp ∧ (srf.stable = true → surface = srf.contents) ∧
    (smp.stable = true → sampler = smp.contents) ∧
    res = Config.sampleFn req surface sampler choice

/-- The byte of `Dst` at an offset from its start. -/
def State.dstByte (s : State) (f : Fields) (k : Nat) : Option Byte :=
  s.byteAt f.dst.id (f.dst.off + k)

/-- The channels of `cs` that are enabled return `val` (R83, R84): byte `k` of the element of each enabled
pixel `i`, little-endian, stands in its place in the channel's block. -/
def Returned (f : Fields) (s t : State) (en : BitVec 16) (cs : List Channel)
    (val : Channel → Nat → Elem) : Prop :=
  ∀ c ∈ cs, f.enables c = true → ∀ i < f.lanes, en.getLsbD i = true → ∀ k < dstSize f s,
    t.dstByte f (blockStart f s c + i * dstSize f s + k) = some ((val c i).extractLsb' (8 * k) 8)

/-- The pixel null mask is returned, if it is enabled (R86): "an additional GRF is returned after the
sampler data", whose first dword has bit `i` of `null` for each enabled pixel `i`. -/
def NullMaskReturned (f : Fields) (s t : State) (en : BitVec 16) (null : Nat → Bool) : Prop :=
  f.pnm = true → ∃ d : BitVec 32,
    (∀ k < 4, t.dstByte f (nullStart f s + k) = some (d.extractLsb' (8 * k) 8)) ∧
      ∀ i < f.lanes, en.getLsbD i = true → d.getLsbD i = null i

/-- Everything a step of an instruction with fields `f` leaves alone (R27, R89): the parameters, the
program, the sampler, surface and predicate variables, the execution mask and the marks; which
variables there are, their types and lengths; and every byte outside the writeback. -/
structure Frame (f : Fields) (s t : State) : Prop where
  cfg : t.cfg = s.cfg
  program : t.program = s.program
  smp : t.smp = s.smp
  srf : t.srf = s.srf
  prd : t.prd = s.prd
  em : t.em = s.em
  faulted : t.faulted = s.faulted
  refused : t.refused = s.refused
  types : t.vars.map Variable.type = s.vars.map Variable.type
  sizes : t.vars.map Variable.size = s.vars.map Variable.size
  bytes : ∀ id a, ¬ InWriteback f s id a → t.byteAt id a = s.byteAt id a

/-- The step looks up the type or the length of variable `id`: the variable of `Dst`, of a supplied
parameter, or one that `Aoffimmi` names. -/
def NamesVar (f : Fields) (id : Nat) : Prop :=
  id = f.dst.id ∨ (∃ p ∈ f.params, p.id = id) ∨ id ∈ f.aoffimmi.names

/-- Two states agree on all that a step of an instruction with fields `f` reads (R27), but for what
`SampleFn` reads of the surface and the sampler state. Other variables, other surfaces and samplers,
other bytes, `pc`, the program and the draws may differ. -/
structure SameInputs (f : Fields) (s t : State) : Prop where
  cfg : t.cfg = s.cfg
  prd : t.prd = s.prd
  em : t.em = s.em
  /-- Both have the sampler that is named, or neither has. -/
  smp : (t.smp[f.sampler.toNat]?).isSome = (s.smp[f.sampler.toNat]?).isSome
  srf : t.srf[f.surface.toNat]?.map Surface.type = s.srf[f.surface.toNat]?.map Surface.type
  vars : ∀ id, NamesVar f id →
    t.vars[id]?.map Variable.type = s.vars[id]?.map Variable.type ∧
      t.vars[id]?.map Variable.size = s.vars[id]?.map Variable.size
  bytes : ∀ id a, ReadsByte f s id a → t.byteAt id a = s.byteAt id a

/-! ## Named properties of a sampling function

The model assumes none of them (R81): a claim that needs one names it as a hypothesis on
`Config.sampleFn`. -/

/-- A sampling function. -/
abbrev SampleFn := SampleReq → List Byte → List Byte → Nat → SampleRes

/-- The result is the same for every choice (R34, R81). -/
def SampleFn.Deterministic (fn : SampleFn) : Prop :=
  ∀ req surface sampler choice choice', fn req surface sampler choice = fn req surface sampler choice'

/-- Two requests differ at most in a coordinate that the table of R82 calls ignored on their surface
type. -/
def SameButIgnored (a b : SampleReq) : Prop :=
  b = { a with params := b.params } ∧ b.params.map Prod.fst = a.params.map Prod.fst ∧
    ∀ k : Nat, ∀ x ∈ a.params[k]?, ∀ y ∈ b.params[k]?,
      x = y ∨ coordMeaning a.surfaceType x.1 = some .ignored

/-- "For a surface type whose cell says 'ignored', the result does not depend on that parameter"
(R82). -/
def SampleFn.IgnoresCoordinates (fn : SampleFn) : Prop :=
  ∀ a b surface sampler choice, SameButIgnored a b →
    fn a surface sampler choice = fn b surface sampler choice

/-- Lane `i` of the result depends on lane `i` of the parameters only (R81). -/
def SampleFn.LaneLocal (fn : SampleFn) : Prop :=
  ∀ (a b : SampleReq) (surface sampler : List Byte) (choice i : Nat), b = { a with params := b.params } →
    b.params.map (fun p => (p.1, p.2[i]?)) = a.params.map (fun p => (p.1, p.2[i]?)) →
    ∀ c, (fn a surface sampler choice).data c i = (fn b surface sampler choice).data c i

end Sys2Proof.Machine
end

