-- ==== Sys2Proof/Certificates/Slice0/Obligations.lean ====
section
/-! DEFINITION. The statements for the provers. `OBLIGATIONS.json` says what each rests on. -/

open Sys2Proof Sys2Proof.Machine

/-! ## Encoding -/

/-- R45: "The first byte of the instruction is `0x6d`"; every other value is refused. -/
def Obligations.OpcodeByteSelects : Prop :=
  (∀ c i code, encode c i = some code → code.head? = some 0x6d) ∧
    ∀ c b bs, b ≠ 0x6d → decode c (b :: bs) = .error .notThisOpcode

/-- R46: the listed values of `Op[4:0]` and the parameter count of each operation; "The other twenty-one
values" are not listed. -/
def Obligations.OperationCodes : Prop :=
  let listed : List (BitVec 5 × SampleOp × Nat) :=
    [(0b00000, .sample, 4), (0b00001, .sampleB, 5), (0b00010, .sampleL, 5), (0b00011, .sampleC, 5),
      (0b00100, .sampleD, 10), (0b00101, .sampleBC, 6), (0b00110, .sampleLC, 6), (0b01001, .lod, 4),
      (0b10100, .sampleDC, 11), (0b11000, .sampleLz, 4), (0b11001, .sampleCLz, 5)]
  (∀ row ∈ listed, SampleOp.ofBits row.1 = some row.2.1 ∧ row.2.1.bits = row.1 ∧
      row.2.1.count = row.2.2) ∧
    ∀ b, b ∉ listed.map Prod.fst → SampleOp.ofBits b = none

/-- An unlisted value of `Op[4:0]` is refused (the spec's decision D6, R65). That it is refused whatever
follows, bytes that end too soon or spell no operand included, is the order that log entry 7 deduces. -/
def Obligations.UnlistedOperationsRefused : Prop :=
  ∀ c (b : Byte) bs,
    b.toNat % 32 ∉ [0x00, 0x01, 0x02, 0x03, 0x04, 0x05, 0x06, 0x09, 0x14, 0x18, 0x19] →
      decode c (0x6d :: b :: bs) = .error .unlistedOp

/-- The table of R60: the name of parameter `k` of each operation. -/
def Obligations.ParameterTable : Prop :=
  (paramNames .sample = [.u, .v, .r, .ai]) ∧
  (paramNames .sampleB = [.bias, .u, .v, .r, .ai]) ∧
  (paramNames .sampleL = [.lod, .u, .v, .r, .ai]) ∧
  (paramNames .sampleC = [.ref, .u, .v, .r, .ai]) ∧
  (paramNames .sampleD = [.u, .dudx, .dudy, .v, .dvdx, .dvdy, .r, .drdx, .drdy, .ai]) ∧
  (paramNames .sampleBC = [.ref, .bias, .u, .v, .r, .ai]) ∧
  (paramNames .sampleLC = [.ref, .lod, .u, .v, .r, .ai]) ∧
  (paramNames .lod = [.u, .v, .r, .ai]) ∧
  (paramNames .sampleDC = [.ref, .u, .dudx, .dudy, .v, .dvdx, .dvdy, .r, .drdx, .drdy, .ai]) ∧
  (paramNames .sampleLz = [.u, .v, .r, .ai]) ∧
  (paramNames .sampleCLz = [.ref, .u, .v, .r, .ai])

/-- The bits each field is read from, in the order and at the places of R43: the field order is the spec's
decision D5, that `Pred` comes least significant byte first its decision D3. -/
def Obligations.FieldsAreTheirBits : Prop :=
  ∀ c bs i rest, decode c bs = .ok (i, rest) →
    ∃ (op exec predLow predHigh channels : Byte) (aoffimmi dst : List Byte) (codes : List (List Byte)),
      bs = [0x6d, op, exec, predLow, predHigh, channels] ++ aoffimmi ++
        [i.fields.sampler, i.fields.surface] ++ dst ++ [BitVec.ofNat 8 i.fields.params.length] ++
        codes.flatten ++ rest ∧
      i.op.bits.toNat = op.toNat % 32 ∧ i.fields.pnm = op.getLsbD 5 ∧ i.fields.cps = op.getLsbD 6 ∧
      i.fields.nonuni = op.getLsbD 7 ∧ i.fields.execSize.toNat = exec.toNat % 8 ∧
      i.fields.execBit3 = exec.getLsbD 3 ∧ i.fields.emctrl.toNat = exec.toNat / 16 ∧
      i.fields.pred.toNat = 256 * predHigh.toNat + predLow.toNat ∧
      i.fields.channels.toNat = channels.toNat % 16 ∧ i.fields.channelsHigh.toNat = channels.toNat / 16 ∧
      (aoffimmi, i.fields.aoffimmi) ∈ c.scalars ∧ (dst, i.fields.dst) ∈ c.raws ∧
      List.Forall₂ (fun code p => (code, p) ∈ c.raws) codes i.fields.params ∧
      i.fields.params.length < 256

/-- Decoding an encoded instruction gives it back, with every field at every value, and the bytes after
it; well formed or not, as long as the number of parameters fits in its byte. The codecs are any
prefix-free tables (log entry 3). -/
def Obligations.DecodeOfEncode : Prop :=
  ∀ c i code rest, c.wf → i.fields.params.length < 256 → encode c i = some code →
    decode c (code ++ rest) = .ok (i, rest)

/-- The other direction: where each operand has one code, what is decoded encodes to the bytes that were
read. -/
def Obligations.EncodeOfDecode : Prop :=
  ∀ c bs i rest, (c.scalars.map Prod.snd).Nodup → (c.raws.map Prod.snd).Nodup →
    decode c bs = .ok (i, rest) → ∃ code, encode c i = some code ∧ bs = code ++ rest

/-- The length of an instruction: 9 bytes, the code of `Aoffimmi`, and those of `Dst` and the
parameters. -/
def Obligations.EncodedLength : Prop :=
  ∀ c i code aoffimmi (raws : List (List Byte)), encode c i = some code →
    codeOf c.scalars i.fields.aoffimmi = some aoffimmi →
    (i.fields.dst :: i.fields.params).map (codeOf c.raws) = raws.map some →
      code.length = 9 + aoffimmi.length + (raws.map List.length).sum

/-- A program given as one run of bytes is cut into the records of its instructions: "the next instruction
starts `Length(I)` bytes after this one". -/
def Obligations.ProgramIsCutIntoRecords : Prop :=
  ∀ c (is : List Instr) (codes : List (List Byte)), c.wf →
    (∀ i ∈ is, i.fields.params.length < 256) → is.map (encode c) = codes.map some →
      cutProgram c codes.flatten = .ok codes

/-- A few words written out from the encoding decode to what they stand for (the examples of R94, R98, R101,
R104, under codecs that spell `V<id>.0` as the byte `id` and an immediate as its two bytes). -/
def Obligations.WrittenWordsDecode : Prop :=
  let c : Codecs := ⟨[([0x00, 0x00], .imm 0)], (List.range 64).map fun k => ([BitVec.ofNat 8 k], ⟨k, 0⟩)⟩
  let f : Fields :=
    { pnm := false, cps := false, nonuni := false, execSize := 0b011, execBit3 := false, emctrl := 0,
      pred := 0, channels := 0b1111, channelsHigh := 0, aoffimmi := .imm 0, sampler := 0, surface := 1,
      dst := ⟨10, 0⟩, params := [⟨20, 0⟩, ⟨21, 0⟩] }
  decode c [0x6d, 0x00, 0x03, 0, 0, 0x0f, 0, 0, 0, 1, 10, 2, 20, 21] = .ok (.sample f, []) ∧
    decode c [0x6d, 0x09, 0x03, 0, 0, 0x03, 0, 0, 0, 1, 10, 2, 20, 21] =
      .ok (.lod { f with channels := 0b0011 }, []) ∧
    decode c [0x6d, 0x04, 0x03, 0, 0, 0x0f, 0, 0, 0, 1, 10, 6, 20, 40, 41, 21, 42, 43] =
      .ok (.sampleD { f with params := [⟨20, 0⟩, ⟨40, 0⟩, ⟨41, 0⟩, ⟨21, 0⟩, ⟨42, 0⟩, ⟨43, 0⟩] }, []) ∧
    decode c [0x6d, 0x39, 0x03, 0, 0, 0x01, 0, 0, 0, 1, 10, 3, 32, 20, 21] =
      .ok (.sampleCLz
        { f with pnm := true, channels := 0b0001, params := [⟨32, 0⟩, ⟨20, 0⟩, ⟨21, 0⟩] }, [])

/-- R69: the text mnemonic of each operation and the parameter operands of its text line. -/
def Obligations.TextMnemonics : Prop :=
  SampleOp.all.map (fun op => (mnemonic op, op, paramNames op)) = [
    ("SAMPLE_3d", .sample, [.u, .v, .r, .ai]),
    ("SAMPLE_B", .sampleB, [.bias, .u, .v, .r, .ai]),
    ("SAMPLE_L", .sampleL, [.lod, .u, .v, .r, .ai]),
    ("SAMPLE_C", .sampleC, [.ref, .u, .v, .r, .ai]),
    ("SAMPLE_D", .sampleD, [.u, .dudx, .dudy, .v, .dvdx, .dvdy, .r, .drdx, .drdy, .ai]),
    ("SAMPLE_B_C", .sampleBC, [.ref, .bias, .u, .v, .r, .ai]),
    ("SAMPLE_L_C", .sampleLC, [.ref, .lod, .u, .v, .r, .ai]),
    ("LOD", .lod, [.u, .v, .r, .ai]),
    ("SAMPLE_D_C", .sampleDC, [.ref, .u, .dudx, .dudy, .v, .dvdx, .dvdy, .r, .drdx, .drdy, .ai]),
    ("SAMPLE_LZ", .sampleLz, [.u, .v, .r, .ai]),
    ("SAMPLE_C_LZ", .sampleCLz, [.ref, .u, .v, .r, .ai])]

/-- A mnemonic with its suffixes spells the operation and the three flag bits of the instruction it was
written for; each suffix stands for its bit, and "The suffixes appear in the fixed order null mask, cps,
divS" (R70). That `.divS` is `Op[7]` is the spec's decision D32 (log entry 31). -/
def Obligations.TextHeadReadsBack : Prop :=
  ∀ i, readTextHead (textHead i) = some (i.op, i.fields.pnm, i.fields.cps, i.fields.nonuni) ∧
    (textHead i).head? = some (mnemonic i.op) ∧
    (".pixel_null_mask" ∈ (textHead i).tail ↔ i.fields.pnm = true) ∧
    (".cps" ∈ (textHead i).tail ↔ i.fields.cps = true) ∧
    (".divS" ∈ (textHead i).tail ↔ i.fields.nonuni = true) ∧
    (textHead i).tail.Sublist [".pixel_null_mask", ".cps", ".divS"]

/-! ## Well-formedness -/

/-- The checks of R64, said plainly. Which of them the source states and which the spec chose is in that
rule's table; what an undeclared variable does is log entry 11. -/
def Obligations.WellFormedExactlyWhen : Prop :=
  ∀ d i, WellFormed d i ↔
    (i.fields.cps = true → d.cfg.platformGeIcllp = true ∧
      i.op ∈ [SampleOp.sample, .sampleB, .sampleBC, .sampleC, .lod]) ∧
    (i.fields.execSize = 0b011 ∨ i.fields.execSize = 0b100) ∧ i.fields.execBit3 = false ∧
    (d.cfg.laneReading = .recommended → 4 * (i.fields.emctrl.toNat % 8) + i.fields.lanes ≤ 32) ∧
    i.fields.channels ≠ 0 ∧ i.fields.channelsHigh = 0 ∧
    (∀ a, i.fields.aoffimmi = .imm a → a.toNat < 0x1000) ∧
    i.fields.sampler.toNat < d.numSamplers ∧ i.fields.surface.toNat < d.numSurfaces ∧
    (∃ t ∈ [ElemType.hf, .f, .w, .uw, .d, .ud], d.varTypes[i.fields.dst.id]? = some t) ∧
    1 ≤ i.fields.params.length ∧ i.fields.params.length ≤ 15 ∧
    i.fields.params.length ≤ (paramNames i.op).length ∧
    ((∀ p ∈ i.fields.params, d.varTypes[p.id]? = some .f) ∨
      d.cfg.platformGeIcllp = true ∧ ∀ p ∈ i.fields.params, d.varTypes[p.id]? = some .hf) ∧
    ∀ p ∈ i.fields.dst :: i.fields.params, d.cfg.grfBytes ∣ p.off

/-- An ill-formed instruction is refused with its first failing check, whatever the state (the spec's
decision D25). All eleven constructors. -/
def Obligations.IllFormedInstructionsRefused : Prop :=
  ∀ i s reason, firstIllFormed s.decls i = some reason → exec i s = .refused (.illFormed reason)

/-! ## The step -/

/-- When the record at `pc` decodes to an instruction and no mark is set, the step is that instruction's
meaning; the step adds nothing around it. The model's choices here: a record is held as bytes and decoded
when it is fetched (log entry 5), and its bytes after the instruction are not read (log entry 33). -/
def Obligations.StepRunsDecodedInstruction : Prop :=
  ∀ (s : State) record i rest, s.unmarked → s.program[s.pc]? = some record →
    decode s.cfg.codecs record = .ok (i, rest) → step s = exec i s

/-- Where there is no record at `pc`, or the decoder rejects it, the step refuses and says why (log entry 6
for the first). -/
def Obligations.StepRefusesWithoutInstruction : Prop :=
  ∀ (s : State), s.unmarked →
    (s.program.length ≤ s.pc → step s = .refused .runOver) ∧
    ∀ record reason, s.program[s.pc]? = some record → decode s.cfg.codecs record = .error reason →
      step s = .refused (.undecodable reason)

/-- The next step runs the instruction of the opcode-table word that was placed. -/
def Obligations.PlacedWordRunsNext : Prop :=
  ∀ (s : State) nbits w i rest,
    decode s.cfg.codecs (tableRecord s.cfg.codecs nbits w) = .ok (i, rest) →
      step (s.withFetchWord nbits w) = exec i (s.withFetchWord nbits w)

/-- A faulting step writes nothing but the mark, and the state it leaves has no further step (the spec's
decision D25). -/
def Obligations.FaultSetsTheMarkAlone : Prop :=
  ∀ (s : State) reason, step s = .fault reason →
    (s.record (step s)).faulted = some reason ∧
    { s.record (step s) with faulted := s.faulted } = s ∧
    step (s.record (step s)) = .fault reason

/-- A refused instruction changes nothing but the mark, and the state it leaves has no further step (the
spec's decision D25). -/
def Obligations.RefusalSetsTheMarkAlone : Prop :=
  ∀ (s : State) why, s.unmarked → step s = .refused why →
    (s.record (step s)).refused = some why ∧
    { s.record (step s) with refused := s.refused } = s ∧
    step (s.record (step s)) = .refused why

/-- The run is over exactly where the step refuses for want of an instruction (the spec's decision D34; log
entry 6). -/
def Obligations.RunOverExactlyAtTheEnd : Prop :=
  ∀ s, StateInv s → s.unmarked → (step s = .refused .runOver ↔ s.final)

/-! ## Completion, results and frame -/

/-- An instruction completes exactly when it is well formed (R74), what it reads can be read (R120 (b) to (d)),
its parameters lie inside their variables (R78), a supplied bias is in range (R80), `Dst` is large enough
(R120 (e), R87) and the writeback meets nothing that was read, unless that is allowed (R88). All eleven
constructors; several conditions are the spec's own decisions. -/
def Obligations.CompletesExactlyWhenReady : Prop :=
  ∀ op f s, (∃ t, exec (Instr.of op f) s = .next t) ↔ Ready op f s

/-- A ready sample, sample_b, sample_l, sample_c, sample_d, sample_b_c, sample_l_c, sample_d_c, sample_lz or
sample_c_lz completes; its enabled channels return the sampled data, its null mask the sampled null bits,
and `pc` falls through. -/
def Obligations.SampleOperationsReturnData : Prop :=
  ∀ op f s, op ≠ .lod → Ready op f s →
    ∃ req res t, IsRequest op f s req ∧ IsSampleOf f s req res ∧
      exec (Instr.of op f) s = .next t ∧ t.pc = s.pc + 1 ∧
      Returned f s t req.en [.R, .G, .B, .A] res.data ∧ NullMaskReturned f s t req.en res.null

/-- A ready LOD completes: "R channel contains the clamped LOD values", "G channel contains the unclamped LOD
values", and the enabled pixels of B and A hold some value, nothing says which. -/
def Obligations.LodReturnsLevels : Prop :=
  ∀ f s, Ready .lod f s →
    ∃ req res undefined t, IsRequest .lod f s req ∧ IsSampleOf f s req res ∧
      exec (.lod f) s = .next t ∧ t.pc = s.pc + 1 ∧
      Returned f s t req.en [.R, .G] res.data ∧ Returned f s t req.en [.B, .A] undefined ∧
      NullMaskReturned f s t req.en res.null

/-- The elements of disabled pixels keep what they held, a value or none (the spec's decision D17). All
eleven constructors. -/
def Obligations.DisabledPixelsKeepTheirElements : Prop :=
  ∀ op f s, Ready op f s →
    ∃ req t, IsRequest op f s req ∧ exec (Instr.of op f) s = .next t ∧
      ∀ c, f.enables c = true → ∀ i < f.lanes, req.en.getLsbD i = false → ∀ k < dstSize f s,
        t.dstByte f (blockStart f s c + i * dstSize f s + k) =
          s.dstByte f (blockStart f s c + i * dstSize f s + k)

/-- After a step the undefined remainder of every enabled channel's block and the whole of the null mask
register hold values, whether or not any pixel is enabled; nothing says which (the spec's decisions D18
and D20). All eleven constructors. -/
def Obligations.UndefinedRemaindersHoldValues : Prop :=
  ∀ op f s, Ready op f s →
    ∃ t, exec (Instr.of op f) s = .next t ∧
      (∀ c, f.enables c = true → ∀ k, f.lanes * dstSize f s ≤ k → k < stride f s →
        (t.dstByte f (blockStart f s c + k)).isSome = true) ∧
      (f.pnm = true → ∀ k < s.cfg.grfBytes, (t.dstByte f (nullStart f s + k)).isSome = true)

/-- What an instruction leaves unchanged when it gives a next state. All eleven constructors: the writeback of
`Dst`, computed as R87 does, is all of the storage that may change. -/
def Obligations.InstructionFrame : Prop :=
  ∀ op f s t, exec (Instr.of op f) s = .next t → Frame f s t ∧ t.pc = s.pc + 1

/-- No step takes a value away: a byte of a variable that holds a value goes on holding one. -/
def Obligations.StepsNeverUnwrite : Prop :=
  ∀ s t id a, step s = .next t → (s.byteAt id a).isSome = true → (t.byteAt id a).isSome = true

/-- The rules fix the request that an instruction makes. -/
def Obligations.RequestIsDetermined : Prop :=
  ∀ op f s req req', WellFormed s.decls (Instr.of op f) → IsRequest op f s req →
    IsRequest op f s req' → req = req'

/-- "the missing parameters will have the value of 0": where an instruction gives a next state, the request
that the sampling function got has, for each of the operation's names from position `NumParams` on, 0 in
every lane, and the enabled pixels return what it answered (of `LOD`, those of R and G). That the 0 is all
zero bits is the spec's decision D21. All eleven constructors. -/
def Obligations.SkippedParametersAreZero : Prop :=
  ∀ op f s t, exec (Instr.of op f) s = .next t →
    ∃ req res, gather op f s = .ok req ∧
      req.params.drop f.params.length =
        ((paramNames op).drop f.params.length).map (fun name => (name, List.replicate f.lanes 0)) ∧
      IsSampleOf f s req res ∧
      Returned f s t req.en (if op = .lod then [.R, .G] else [.R, .G, .B, .A]) res.data

/-- No bit of the enabled pixels is set past the lanes of the instruction, under either reading of the masks
(log entries 14 and 15). -/
def Obligations.EnabledPixelsAreLanes : Prop :=
  ∀ op f s req, WellFormed s.decls (Instr.of op f) → IsRequest op f s req →
    ∀ i, f.lanes ≤ i → req.en.getLsbD i = false

/-- The kind of an instruction's outcome, the reason of a stop and the request depend on what R27 says is
read, and on nothing else: not on other variables, their types and lengths, on other surfaces and samplers,
on other bytes, `pc`, the program, or the stamp of the draws. Both states have the same parameters of R6,
predicates and execution mask. All eleven constructors. -/
def Obligations.RequestDependsOnFootprint : Prop :=
  ∀ op f s t, SameInputs f s t →
    (Ready op f s → Ready op f t) ∧ (∀ req, IsRequest op f s req → IsRequest op f t req) ∧
    gather op f t = gather op f s ∧
    (∀ reason, exec (Instr.of op f) s = .fault reason → exec (Instr.of op f) t = .fault reason) ∧
    (∀ why, exec (Instr.of op f) s = .refused why → exec (Instr.of op f) t = .refused why) ∧
    ((∃ s', exec (Instr.of op f) s = .next s') → ∃ t', exec (Instr.of op f) t = .next t')

/-! ## Faults -/

/-- What a fault says of the state, for each reason of R107. All eleven constructors. -/
def Obligations.FaultsHaveTheirReasons : Prop :=
  ∀ op f s reason, exec (Instr.of op f) s = .fault reason →
    WellFormed s.decls (Instr.of op f) ∧
    match reason with
    | .unwrittenRead =>
      predEval s.cfg s.prd s.em f.pred f.emctrl f.lanes = none ∨
      (∃ id, f.aoffimmi = .var id ∧ (s.byteAt id 0 = none ∨ s.byteAt id 1 = none)) ∨
      (ScalarIsOpen s f.aoffimmi ∧ openScalar16 s f.aoffimmi = none) ∨
      ∃ p ∈ f.params, ∃ k < paramBytes f s, s.byteAt p.id (p.off + k) = none
    | .outOfVariable =>
      (∃ p ∈ f.params, s.sizeOfVar p.id < p.off + paramBytes f s) ∨
      s.sizeOfVar f.dst.id < f.dst.off + writebackBytes f s
    | .aoffimmiReservedBits =>
      (∃ id, f.aoffimmi = .var id ∧ ∃ high, s.byteAt id 1 = some high ∧ high.extractLsb' 4 4 ≠ 0) ∨
      (ScalarIsOpen s f.aoffimmi ∧ ∃ a, openScalar16 s f.aoffimmi = some a ∧ 0x1000 ≤ a.toNat)
    | .biasOutOfRange =>
      (op = .sampleB ∨ op = .sampleBC) ∧ ∃ p, (ParamName.bias, p) ∈ (paramNames op).zip f.params ∧
        ∃ i < f.lanes, ∃ e, s.elemAt p (elemSize (paramType f s)) i = some e ∧
          biasInRange (paramType f s) e = false
    | .dstParamOverlap =>
      s.cfg.allowDstParamOverlap = false ∧
        ∃ a, InWriteback f s f.dst.id a ∧ KeptApart f s f.dst.id a

/-- A well-formed instruction that is not ready faults: with `CompletesExactlyWhenReady` it never does
anything else. All eleven constructors. -/
def Obligations.WellFormedAndNotReadyFaults : Prop :=
  ∀ op f s, WellFormed s.decls (Instr.of op f) → ¬ Ready op f s →
    ∃ reason, exec (Instr.of op f) s = .fault reason

/-- A supplied bias outside [-16.0, 16.0] in any lane, enabled or not, faults in sample_b and sample_b_c (the
spec's decision D23), if all that is read before it can be read. -/
def Obligations.BiasOutOfRangeFaults : Prop :=
  ∀ op f s p i e, WellFormed s.decls (Instr.of op f) →
    (predEval s.cfg s.prd s.em f.pred f.emctrl f.lanes).isSome = true → OffsetsReady s f.aoffimmi →
    (∀ p ∈ f.params, p.off + paramBytes f s ≤ s.sizeOfVar p.id ∧
      ∀ k < paramBytes f s, (s.byteAt p.id (p.off + k)).isSome = true) →
    (ParamName.bias, p) ∈ (paramNames op).zip f.params → i < f.lanes →
    s.elemAt p (elemSize (paramType f s)) i = some e → biasInRange (paramType f s) e = false →
      exec (Instr.of op f) s = .fault .biasOutOfRange

/-- A byte of a parameter that holds no value faults, in an enabled lane or a disabled one (the spec's decision
D39), if all that is read before the parameters can be read. All eleven constructors. -/
def Obligations.UnwrittenParameterFaults : Prop :=
  ∀ op f s p k, WellFormed s.decls (Instr.of op f) →
    (predEval s.cfg s.prd s.em f.pred f.emctrl f.lanes).isSome = true → OffsetsReady s f.aoffimmi →
    (∀ p ∈ f.params, p.off + paramBytes f s ≤ s.sizeOfVar p.id) →
    p ∈ f.params → k < paramBytes f s → s.byteAt p.id (p.off + k) = none →
      exec (Instr.of op f) s = .fault .unwrittenRead

/-- An `Aoffimmi` that is read with bits 15..12 not zero faults (the spec's decision D11): the first two bytes
of a variable, little-endian (D3), where `ReadScalar16` is taken as R19 describes it, and an operand whose
value is open (log entry 8). All eleven constructors. -/
def Obligations.ReservedOffsetBitsFault : Prop :=
  ∀ op f s, WellFormed s.decls (Instr.of op f) →
    (predEval s.cfg s.prd s.em f.pred f.emctrl f.lanes).isSome = true →
    ((s.cfg.scalarReading = .recommended ∧ ∃ id low high, f.aoffimmi = .var id ∧
        s.byteAt id 0 = some low ∧ s.byteAt id 1 = some high ∧ high.extractLsb' 4 4 ≠ 0) ∨
      (ScalarIsOpen s f.aoffimmi ∧ ∃ a, openScalar16 s f.aoffimmi = some a ∧ 0x1000 ≤ a.toNat)) →
      exec (Instr.of op f) s = .fault .aoffimmiReservedBits

/-- A `Dst` too small for the writeback faults, if all that is read can be read and is admitted. All eleven
constructors. -/
def Obligations.SmallDestinationFaults : Prop :=
  ∀ op f s, InputsReady op f s → s.sizeOfVar f.dst.id < f.dst.off + writebackBytes f s →
    exec (Instr.of op f) s = .fault .outOfVariable

/-- A writeback that meets what was read faults unless that is allowed (the spec's decision D29), if all that
is read can be read and is admitted and `Dst` is large enough. All eleven constructors. -/
def Obligations.OverlapFaults : Prop :=
  ∀ op f s a, InputsReady op f s → f.dst.off + writebackBytes f s ≤ s.sizeOfVar f.dst.id →
    s.cfg.allowDstParamOverlap = false → InWriteback f s f.dst.id a → KeptApart f s f.dst.id a →
      exec (Instr.of op f) s = .fault .dstParamOverlap

/-- A predicate bit that is read and holds no value, or a byte of the `Aoffimmi` variable that holds none,
faults; so does an open scalar operand that answers no value (log entry 8). All eleven constructors. -/
def Obligations.UnwrittenPredicateOrOffsetsFault : Prop :=
  ∀ op f s, WellFormed s.decls (Instr.of op f) →
    (predEval s.cfg s.prd s.em f.pred f.emctrl f.lanes = none ∨
      (s.cfg.scalarReading = .recommended ∧
        ∃ id k, f.aoffimmi = .var id ∧ k < 2 ∧ s.byteAt id k = none) ∨
      (ScalarIsOpen s f.aoffimmi ∧ openScalar16 s f.aoffimmi = none)) →
      exec (Instr.of op f) s = .fault .unwrittenRead

/-- The supplied parameters are read in position order: the first that passes the end of its variable
faults as that, and the first with a byte that holds no value as that (log entry 20 for a parameter that
does both). All eleven constructors. -/
def Obligations.FirstUnreadableParameterFaults : Prop :=
  ∀ op f s before p after, WellFormed s.decls (Instr.of op f) →
    (predEval s.cfg s.prd s.em f.pred f.emctrl f.lanes).isSome = true → OffsetsReady s f.aoffimmi →
    f.params = before ++ p :: after →
    (∀ q ∈ before, q.off + paramBytes f s ≤ s.sizeOfVar q.id ∧
      ∀ k < paramBytes f s, (s.byteAt q.id (q.off + k)).isSome = true) →
      (s.sizeOfVar p.id < p.off + paramBytes f s → exec (Instr.of op f) s = .fault .outOfVariable) ∧
      (p.off + paramBytes f s ≤ s.sizeOfVar p.id →
        (∃ k < paramBytes f s, s.byteAt p.id (p.off + k) = none) →
          exec (Instr.of op f) s = .fault .unwrittenRead)

/-- The range test is that of the bit patterns: the magnitude of an F is at most that of 16.0, `0x41800000`,
and of an HF at most `0x4C00`; a NaN and an infinity are out of range. What F and HF are is R10's general
knowledge. -/
def Obligations.BiasRangeByPattern : Prop :=
  (∀ e, biasInRange .f e = true ↔ e.toNat % 2 ^ 31 ≤ 0x41800000) ∧
    ∀ e, biasInRange .hf e = true ↔ e.toNat % 2 ^ 15 ≤ 0x4c00

/-! ## Masks, offsets and layout -/

/-- The recommended `LaneEnable`: `em[i] = EM[first + i]` with `first = 4 * (k - 1)`, and every lane under a
`_NM` name. PRESUMED by R21 itself (log entry 14). -/
def Obligations.RecommendedLaneMask : Prop :=
  ∀ cfg em (ctrl : BitVec 4) n i, cfg.laneReading = .recommended → n ≤ 16 →
    (laneEnable cfg em ctrl n).getLsbD i =
      (decide (i < n) && (ctrl.getLsbD 3 || em.getLsbD (4 * (ctrl.toNat % 8) + i)))

/-- The recommended `PredEval` under the combine control "none": number 0 masks no lane; otherwise
`pm[i] = Prd[id][first + i] xor pred16[15]`; under every combine control, bits that all hold a value give
some mask of the lanes, and a bit that holds none stops it. PRESUMED by R20 itself (log entry 15, also for
bit 12 and for the mask under another control). -/
def Obligations.RecommendedPredicate : Prop :=
  ∀ cfg prd em (pred : BitVec 16) (ctrl : BitVec 4) n, cfg.predReading = .recommended → n ≤ 16 →
    (pred.toNat % 4096 = 0 →
      ∃ pm, predEval cfg prd em pred ctrl n = some pm ∧ ∀ i < n, pm.getLsbD i = true) ∧
    (pred.toNat % 4096 ≠ 0 → pred.toNat / 8192 % 4 = 0 →
      ∀ b : Nat → Bool,
        (∀ i < n, ∃ bits, prd[pred.toNat % 4096]? = some bits ∧
          bits[4 * (ctrl.toNat % 8) + i]? = some (some (b i))) →
        ∃ pm, predEval cfg prd em pred ctrl n = some pm ∧
          ∀ i < n, pm.getLsbD i = (b i ^^ pred.getLsbD 15)) ∧
    (pred.toNat % 4096 ≠ 0 →
      (∀ i < n, ∃ bits b, prd[pred.toNat % 4096]? = some bits ∧
        bits[4 * (ctrl.toNat % 8) + i]? = some (some b)) →
        ∃ pm, predEval cfg prd em pred ctrl n = some pm ∧ ∀ i, n ≤ i → pm.getLsbD i = false) ∧
    (pred.toNat % 4096 ≠ 0 →
      (∃ i < n, ∀ bits, prd[pred.toNat % 4096]? = some bits →
        ∀ b, bits[4 * (ctrl.toNat % 8) + i]? ≠ some (some b)) →
      predEval cfg prd em pred ctrl n = none)

/-- The texel offsets of an `Aoffimmi` value: U in the highest described nibble, R in the lowest, each in
-8..7 (the spec's decision D12), and the value of R76's example. -/
def Obligations.OffsetsUnpack : Prop :=
  (∀ a : BitVec 16, ∀ x ∈ [(offsetsOf a).u, (offsetsOf a).v, (offsetsOf a).r], -8 ≤ x ∧ x ≤ 7) ∧
    offsetsOf 0x0f18 = ⟨-1, 1, -8⟩ ∧ offsetsOf 0x0123 = ⟨1, 2, 3⟩

/-- "the enabled channels, taken in the order R, G, B, A, get the block numbers 0, 1, 2, ...": the block
number of an enabled channel is its place among the enabled channels, and there are as many blocks as
enabled channels. -/
def Obligations.BlocksCountEnabledChannels : Prop :=
  ∀ f : Fields, (∀ c, f.enables c = true →
      ([Channel.R, .G, .B, .A].filter f.enables)[blockNumber f c]? = some c) ∧
    numBlocks f = ([Channel.R, .G, .B, .A].filter f.enables).length

/-- Each channel's block is whole registers, the fewest that hold its elements (the spec's decision D16), and
the blocks and the null mask register follow one another without meeting. -/
def Obligations.BlocksDoNotMeet : Prop :=
  ∀ f (s : State), s.cfg.grfBytes ∣ stride f s ∧ f.lanes * dstSize f s ≤ stride f s ∧
    stride f s < f.lanes * dstSize f s + s.cfg.grfBytes ∧
    ∀ c, f.enables c = true →
      blockStart f s c + stride f s ≤ nullStart f s ∧
      ∀ d, f.enables d = true → c ≠ d →
        blockStart f s c + stride f s ≤ blockStart f s d ∨
          blockStart f s d + stride f s ≤ blockStart f s c

/-- The sizes of the six element types, R10's general knowledge. -/
def Obligations.ElementSizes : Prop :=
  [ElemType.hf, .f, .w, .uw, .d, .ud].map elemSize = [2, 4, 2, 2, 4, 4]

/-- The table of the Notes: what u, v, r and ai mean on each surface type. -/
def Obligations.CoordinateTable : Prop :=
  ∀ row ∈ ([
      ([.dim1, .dim1Array], [.normalizedX, .unnormalizedArrayIndex, .ignored, .ignored]),
      ([.dim2, .dim2Array], [.normalizedX, .normalizedY, .unnormalizedArrayIndex, .ignored]),
      ([.dim3], [.normalizedX, .normalizedY, .normalizedZ, .ignored]),
      ([.cube], [.normalizedX, .normalizedY, .normalizedZ, .unnormalizedArrayIndex])] :
      List (List SurfaceType × List CoordMeaning)),
    ∀ t ∈ row.1, [ParamName.u, .v, .r, .ai].map (coordMeaning t) = row.2.map some

/-! ## Invariants -/

/-- From every state that meets the invariant, a step gives a state that meets it. -/
def Obligations.StepKeepsInvariant : Prop :=
  ∀ s t, StateInv s → step s = .next t → StateInv t

/-- The reset state meets the invariant. What the reset state holds beside R26's values is the model's choice
(log entries 2, 5, 9, 10 and 19). -/
def Obligations.ResetMeetsInvariant : Prop :=
  StateInv State.reset

/-- The launch state (the spec's decisions D24 to D26): `pc` is 0 and neither mark is set, whatever the launch
gives; and at reset no byte of a variable and no predicate bit holds a value. -/
def Obligations.LaunchState : Prop :=
  (∀ l, (State.launch l).pc = 0 ∧ (State.launch l).faulted = none ∧
    (State.launch l).refused = none ∧ (State.launch l).vars = l.vars ∧
    (State.launch l).prd = l.prd ∧ (State.launch l).em = l.em) ∧
  (∀ id a, State.reset.byteAt id a = none) ∧ ∀ id lane, predBit State.reset.prd id lane = none

/-- A run of `k` steps advances `pc` by `k` (the instruction "is not a control transfer") and leaves the
parameters, the program, the sampler, surface and predicate variables, the execution mask, and the types and
lengths of the variables as the launch gave them. -/
def Obligations.RunsAreStraightLine : Prop :=
  ∀ k (s t : State), Host.Core.run Sys2Proof.core k s = .next t →
    t.pc = s.pc + k ∧ t.cfg = s.cfg ∧ t.program = s.program ∧ t.smp = s.smp ∧ t.srf = s.srf ∧
    t.prd = s.prd ∧ t.em = s.em ∧ t.vars.map Variable.type = s.vars.map Variable.type ∧
    t.vars.map Variable.size = s.vars.map Variable.size

/-! ## Beside the statements above -/

/-- A proper prefix of an encoded instruction is refused as truncated, under any prefix-free codecs (log
entries 3 and 4). -/
def Obligations.ProperPrefixesAreTruncated : Prop :=
  ∀ c i code k, c.wf → i.fields.params.length < 256 → encode c i = some code → k < code.length →
    decode c (code.take k) = .error .truncated

/-- Where the bytes of `Aoffimmi`, of `Dst` or of a supplied parameter neither begin with a code nor end
inside one, the instruction is refused by the operand codec (log entries 3 and 4). -/
def Obligations.UnreadableOperandsRefused : Prop :=
  ∀ (c : Codecs) (op exec predLow predHigh channels sampler surface numParams : Byte) (bs : List Byte),
    c.wf → SampleOp.ofBits (op.extractLsb' 0 5) ≠ none →
    (SpellsNoCode c.scalars bs →
      decode c ([0x6d, op, exec, predLow, predHigh, channels] ++ bs) = .error .operandCodec) ∧
    ∀ aoffimmi ∈ c.scalars.map Prod.fst,
      (SpellsNoCode c.raws bs →
        decode c ([0x6d, op, exec, predLow, predHigh, channels] ++ aoffimmi ++ [sampler, surface] ++ bs) =
          .error .operandCodec) ∧
      ∀ dst ∈ c.raws.map Prod.fst, ∀ codes : List (List Byte),
        (∀ code ∈ codes, code ∈ c.raws.map Prod.fst) → codes.length < numParams.toNat →
        SpellsNoCode c.raws bs →
          decode c ([0x6d, op, exec, predLow, predHigh, channels] ++ aoffimmi ++ [sampler, surface] ++
            dst ++ [numParams] ++ codes.flatten ++ bs) = .error .operandCodec

/-- Taken as R19 describes it, `ReadScalar16` gives the value of an immediate, and of a variable its first
two bytes, little-endian, or the fault `UnwrittenRead` if one holds no value; an operand that cannot be read
faults in no other way, whatever its kind and the reading (log entry 8). -/
def Obligations.ScalarOperandsRead : Prop :=
  ∀ s : State,
    (s.cfg.scalarReading = .recommended →
      (∀ a, readScalar16 s (.imm a) = .ok a) ∧
      (∀ id low high, s.byteAt id 0 = some low → s.byteAt id 1 = some high →
        ∃ a, readScalar16 s (.var id) = .ok a ∧ a.toNat = 256 * high.toNat + low.toNat) ∧
      ∀ id k, k < 2 → s.byteAt id k = none → readScalar16 s (.var id) = .error .unwrittenRead) ∧
    ∀ opnd reason, readScalar16 s opnd = .error reason → reason = .unwrittenRead

/-- Where two states agree on the inputs, on the surface and the sampler that are named and on the draws, an
instruction that completes in one completes in the other and writes the same bytes: every byte of the
writeback but those of the elements of disabled pixels. All eleven constructors. The draws stand for the
spec's free choices (log entries 17 to 19); no value of them is used. -/
def Obligations.ResultsDependOnFootprint : Prop :=
  ∀ op f s t s', SameInputs f s t → t.srf[f.surface.toNat]? = s.srf[f.surface.toNat]? →
    t.smp[f.sampler.toNat]? = s.smp[f.sampler.toNat]? → t.draws = s.draws →
    exec (Instr.of op f) s = .next s' →
      ∃ req t', IsRequest op f s req ∧ exec (Instr.of op f) t = .next t' ∧
        ∀ k < writebackBytes f s,
          (∀ c, f.enables c = true → ∀ i < f.lanes, req.en.getLsbD i = false → ∀ j < dstSize f s,
            k ≠ blockStart f s c + i * dstSize f s + j) →
          t'.dstByte f k = s'.dstByte f k
end

