-- ==== Sys2Proof/Laws/Codec.lean ====
section
/-! SUPPORT. Reading back what the codecs' tables spell. -/

namespace Sys2Proof

theorem dropCode_eq_some {code bs rest : List Byte} :
    dropCode code bs = some rest ↔ bs = code ++ rest := by
  induction code generalizing bs with
  | nil => simp [dropCode]
  | cons c code ih =>
    cases bs with
    | nil => simp [dropCode]
    | cons b bs =>
      simp only [dropCode]
      split
      · rename_i h
        simp [ih, h]
      · rename_i h
        simp [Ne.symm h]

/-- The code an encoder takes for an operand is the table's. -/
theorem mem_of_codeOf {α : Type} [DecidableEq α] {table : List (List Byte × α)} {x : α}
    {code : List Byte} (h : codeOf table x = some code) : (code, x) ∈ table := by
  unfold codeOf at h
  obtain ⟨e, he, rfl⟩ := Option.map_eq_some_iff.1 h
  have h1 := List.find?_some he
  simp only [decide_eq_true_eq] at h1
  subst h1
  exact List.mem_of_find?_eq_some he

/-- A prefix-free table reads back each of its codes, whatever follows. -/
theorem readCode_append {α : Type} {table : List (List Byte × α)} (hp : prefixFree table) {x : α}
    {code : List Byte} (h : (code, x) ∈ table) (rest : List Byte) :
    readCode table (code ++ rest) = .ok (x, rest) := by
  suffices hs : table.findSome? (fun e => (dropCode e.1 (code ++ rest)).map fun r => (e.2, r)) =
      some (x, rest) by
    unfold readCode
    rw [hs]
  induction table with
  | nil => cases h
  | cons e table ih =>
    obtain ⟨he, ht⟩ := List.pairwise_cons.1 hp
    rw [List.findSome?_cons]
    rcases List.mem_cons.1 h with rfl | h
    · rw [dropCode_eq_some.2 rfl]
      rfl
    · cases hd : dropCode e.1 (code ++ rest) with
      | none => exact ih ht h
      | some r =>
        exfalso
        have h1 : e.1 <+: code ++ rest := ⟨r, (dropCode_eq_some.1 hd).symm⟩
        have h2 : code <+: code ++ rest := ⟨rest, rfl⟩
        rcases List.prefix_or_prefix_of_prefix h1 h2 with h3 | h3
        · exact (he _ h).1 h3
        · exact (he _ h).2 h3

/-- Bytes that begin with no code are read by none. -/
theorem findCode_eq_none {α : Type} {table : List (List Byte × α)} {bs : List Byte}
    (h : ∀ e ∈ table, ¬ e.1 <+: bs) :
    table.findSome? (fun e => (dropCode e.1 bs).map fun r => (e.2, r)) = none := by
  rw [List.findSome?_eq_none_iff]
  intro e he
  cases hd : dropCode e.1 bs with
  | none => rfl
  | some r => exact absurd ⟨r, (dropCode_eq_some.1 hd).symm⟩ (h e he)

/-- Bytes that begin with no code are truncated if they end inside one, and otherwise spell no operand. -/
theorem readCode_eq_error {α : Type} {table : List (List Byte × α)} {bs : List Byte}
    (h : ∀ e ∈ table, ¬ e.1 <+: bs) :
    ((∃ e ∈ table, bs <+: e.1) → readCode table bs = .error .truncated) ∧
      ((∀ e ∈ table, ¬ bs <+: e.1) → readCode table bs = .error .operandCodec) := by
  have hany : (table.any fun e => (dropCode bs e.1).isSome) = true ↔ ∃ e ∈ table, bs <+: e.1 := by
    simp only [List.any_eq_true, Option.isSome_iff_exists, dropCode_eq_some]
    exact exists_congr fun e => and_congr_right fun _ => exists_congr fun r => eq_comm
  unfold readCode
  rw [findCode_eq_none h]
  refine ⟨fun hp => if_pos (hany.2 hp), fun hn => if_neg fun ht => ?_⟩
  obtain ⟨e, he, hp⟩ := hany.1 ht
  exact hn e he hp

/-- Under a prefix-free table, bytes that end inside a code begin with none. -/
theorem not_prefix_of_prefixFree {α : Type} {table : List (List Byte × α)} (hp : prefixFree table)
    {e x : List Byte × α} (he : e ∈ table) (hx : x ∈ table) {bs : List Byte} (hb : bs <+: x.1)
    (hne : bs ≠ x.1) : ¬ e.1 <+: bs := by
  intro h
  have hex : e.1 <+: x.1 := h.trans hb
  induction table with
  | nil => cases he
  | cons y table ih =>
    obtain ⟨hy, ht⟩ := List.pairwise_cons.1 hp
    rcases List.mem_cons.1 he with h1 | h1 <;> rcases List.mem_cons.1 hx with h2 | h2
    · rw [h1, ← h2] at h
      exact hne (hb.eq_of_length (Nat.le_antisymm hb.length_le h.length_le))
    · exact (hy x h2).1 (h1 ▸ hex)
    · exact (hy e h1).2 (h2 ▸ hex)
    · exact ih ht h1 h2

/-- A run of raw operands reads back. -/
theorem readRaws_append {table : List (List Byte × RawOperand)} (hp : prefixFree table)
    {ps : List RawOperand} {codes : List Byte} (h : codesOf table ps = some codes)
    (rest : List Byte) : readRaws table ps.length (codes ++ rest) = .ok (ps, rest) := by
  induction ps generalizing codes with
  | nil =>
    simp only [codesOf, Option.some.injEq] at h
    subst h
    rfl
  | cons p ps ih =>
    simp only [codesOf] at h
    cases hc : codeOf table p with
    | none => simp [hc] at h
    | some code =>
      cases hcs : codesOf table ps with
      | none => simp [hc, hcs] at h
      | some codes' =>
        simp only [hc, hcs, Option.some.injEq] at h
        subst h
        rw [List.length_cons, readRaws, List.append_assoc,
          readCode_append hp (mem_of_codeOf hc)]
        simp only [ih hcs]

/-- Reading an operand takes one of the table's codes off the front. -/
theorem readCode_eq_ok {α : Type} {table : List (List Byte × α)} {bs rest : List Byte} {x : α}
    (h : readCode table bs = .ok (x, rest)) : ∃ code, (code, x) ∈ table ∧ bs = code ++ rest := by
  unfold readCode at h
  split at h
  · rename_i r hr
    cases h
    obtain ⟨e, he, hd⟩ := List.exists_of_findSome?_eq_some hr
    obtain ⟨r, hr, heq⟩ := Option.map_eq_some_iff.1 hd
    cases heq
    exact ⟨e.1, he, dropCode_eq_some.1 hr⟩
  · split at h <;> cases h

/-- Where each operand has one code, the encoder takes that code. -/
theorem codeOf_of_mem {α : Type} [DecidableEq α] {table : List (List Byte × α)} {x : α}
    {code : List Byte} (hn : (table.map Prod.snd).Nodup) (h : (code, x) ∈ table) :
    codeOf table x = some code := by
  unfold codeOf
  induction table with
  | nil => cases h
  | cons e t ih =>
    rw [List.map_cons, List.nodup_cons] at hn
    rw [List.find?_cons]
    rcases List.mem_cons.1 h with rfl | h
    · simp
    · have : e.2 ≠ x := by
        rintro rfl
        exact hn.1 (List.mem_map.2 ⟨_, h, rfl⟩)
      simp [this, ih hn.2 h]

/-- Reading a run of raw operands takes that many codes off the front. -/
theorem readRaws_eq_ok {table : List (List Byte × RawOperand)} {k : Nat} {bs rest : List Byte}
    {ps : List RawOperand} (h : readRaws table k bs = .ok (ps, rest)) :
    ps.length = k ∧ ∃ codes : List (List Byte),
      List.Forall₂ (fun code p => (code, p) ∈ table) codes ps ∧ bs = codes.flatten ++ rest := by
  induction k generalizing bs ps with
  | zero =>
    cases h
    exact ⟨rfl, [], .nil, rfl⟩
  | succ k ih =>
    simp only [readRaws] at h
    split at h
    · cases h
    rename_i p bs1 h1
    split at h
    · cases h
    rename_i ps' bs2 h2
    cases h
    obtain ⟨code, hm, rfl⟩ := readCode_eq_ok h1
    obtain ⟨hl, codes, hf, rfl⟩ := ih h2
    exact ⟨by simp [hl], code :: codes, .cons hm hf, by simp⟩

/-! ## The bytes that hold several fields -/

theorem opByte_fields (op : SampleOp) (f : Fields) :
    (f.opByte op).extractLsb' 0 5 = op.bits ∧ (f.opByte op).getLsbD 5 = f.pnm ∧
      (f.opByte op).getLsbD 6 = f.cps ∧ (f.opByte op).getLsbD 7 = f.nonuni := by
  unfold Fields.opByte
  cases f.nonuni <;> cases f.cps <;> cases f.pnm <;> cases op <;> decide

theorem execByte_fields (f : Fields) :
    f.execByte.extractLsb' 0 3 = f.execSize ∧ f.execByte.getLsbD 3 = f.execBit3 ∧
      f.execByte.extractLsb' 4 4 = f.emctrl := by
  unfold Fields.execByte
  generalize f.execSize = a
  generalize f.emctrl = b
  revert a b
  cases f.execBit3 <;> decide

theorem channelsByte_fields (f : Fields) :
    f.channelsByte.extractLsb' 0 4 = f.channels ∧ f.channelsByte.extractLsb' 4 4 = f.channelsHigh := by
  unfold Fields.channelsByte
  generalize f.channels = a
  generalize f.channelsHigh = b
  revert a b
  decide

/-- The two bytes of `Pred`, put together again. -/
theorem pred_of_bytes (x : BitVec 16) : x.extractLsb' 8 8 ++ x.extractLsb' 0 8 = x := by
  apply BitVec.eq_of_getLsbD_eq
  intro i hi
  rw [BitVec.getLsbD_append]
  simp only [BitVec.getLsbD_extractLsb', Nat.zero_add]
  split
  · simp [*]
  · rw [show 8 + (i - 8) = i by omega]
    simp
    omega

theorem low_of_pred (high low : Byte) : (high ++ low).extractLsb' 0 8 = low := by
  apply BitVec.eq_of_getLsbD_eq
  intro i hi
  rw [BitVec.getLsbD_extractLsb', BitVec.getLsbD_append]
  simp [hi]

theorem high_of_pred (high low : Byte) : (high ++ low).extractLsb' 8 8 = high := by
  apply BitVec.eq_of_getLsbD_eq
  intro i hi
  rw [BitVec.getLsbD_extractLsb', BitVec.getLsbD_append]
  simp [hi]

theorem ofBits_bits (op : SampleOp) : SampleOp.ofBits op.bits = some op := by cases op <;> decide

theorem bits_of_ofBits {b : BitVec 5} {op : SampleOp} (h : SampleOp.ofBits b = some op) :
    op.bits = b := by
  have := List.find?_some h
  simpa using this

end Sys2Proof
end

