-- ==== Sys2Proof/Laws/Memory.lean ====
section
/-! SUPPORT. The laws of storage: a read after a write, the canonical form, and what a list of writes
does. -/

namespace Sys2Proof.Machine

open Sys2Proof

@[simp] theorem Memory.read_nil (a : Nat) : Memory.read [] a = none := rfl

theorem Memory.read_write_self (m : Memory) (a : Nat) (b : Byte) : (m.write a b).read a = some b := by
  induction m with
  | nil => simp [Memory.write, Memory.read]
  | cons c m ih =>
    simp only [Memory.write]
    split
    · simp [Memory.read]
    · split
      · simp [Memory.read]
      · rename_i h
        simp [Memory.read, Ne.symm h, ih]

theorem Memory.read_write_other (m : Memory) {a a' : Nat} (b : Byte) (h : a' ≠ a) :
    (m.write a b).read a' = m.read a' := by
  induction m with
  | nil => simp [Memory.write, Memory.read, Ne.symm h, Memory.unlisted]
  | cons c m ih =>
    simp only [Memory.write]
    split
    · simp [Memory.read, Ne.symm h]
    · split
      · rename_i hc
        subst hc
        simp [Memory.read, Ne.symm h]
      · simp [Memory.read, ih]

/-- A write adds its own cell and no other. -/
theorem Memory.mem_write {m : Memory} {a : Nat} {b : Byte} {c : Host.Cell} (h : c ∈ m.write a b) :
    c = (a, b) ∨ c ∈ m := by
  induction m with
  | nil => simpa [Memory.write] using h
  | cons d m ih =>
    simp only [Memory.write] at h
    split at h
    · simpa using h
    · split at h
      · rcases List.mem_cons.1 h with h | h
        · exact .inl h
        · exact .inr (List.mem_cons_of_mem _ h)
      · rcases List.mem_cons.1 h with h | h
        · exact .inr (h ▸ List.mem_cons_self)
        · exact (ih h).imp id (List.mem_cons_of_mem _)

theorem Memory.write_wf {m : Memory} (h : m.wf) (a : Nat) (b : Byte) : (m.write a b).wf := by
  induction m with
  | nil => simp [Memory.write, Memory.wf]
  | cons d m ih =>
    obtain ⟨hd, hm⟩ := List.pairwise_cons.1 h
    simp only [Memory.write]
    split
    · rename_i hlt
      refine List.pairwise_cons.2 ⟨fun c hc => ?_, h⟩
      rcases List.mem_cons.1 hc with rfl | hc
      · exact hlt
      · exact Nat.lt_trans hlt (hd c hc)
    · split
      · rename_i heq
        exact List.pairwise_cons.2 ⟨fun c hc => heq ▸ hd c hc, hm⟩
      · rename_i hlt hne
        refine List.pairwise_cons.2 ⟨fun c hc => ?_, ih hm⟩
        rcases Memory.mem_write hc with rfl | hc
        · simp only; omega
        · exact hd c hc

@[simp] theorem Memory.writeAll_nil (m : Memory) (base : Nat) : m.writeAll base [] = m := rfl

@[simp] theorem Memory.writeAll_cons (m : Memory) (base : Nat) (c : Host.Cell) (cells : List Host.Cell) :
    m.writeAll base (c :: cells) = (m.write (base + c.1) c.2).writeAll base cells := rfl

theorem Memory.writeAll_wf {m : Memory} (h : m.wf) (base : Nat) (cells : List Host.Cell) :
    (m.writeAll base cells).wf := by
  induction cells generalizing m with
  | nil => exact h
  | cons c cells ih => exact ih (Memory.write_wf h _ _)

/-- Several writes leave every offset alone that is none of theirs. -/
theorem Memory.read_writeAll_other {m : Memory} {base a : Nat} {cells : List Host.Cell}
    (h : ∀ c ∈ cells, a ≠ base + c.1) : (m.writeAll base cells).read a = m.read a := by
  induction cells generalizing m with
  | nil => rfl
  | cons c cells ih =>
    rw [Memory.writeAll_cons, ih fun d hd => h d (List.mem_cons_of_mem _ hd),
      Memory.read_write_other _ _ (h c List.mem_cons_self)]

/-- Several writes to different offsets each take effect. -/
theorem Memory.read_writeAll_self {m : Memory} {base k : Nat} {b : Byte} {cells : List Host.Cell}
    (hd : cells.Pairwise fun x y => x.1 ≠ y.1) (h : (k, b) ∈ cells) :
    (m.writeAll base cells).read (base + k) = some b := by
  induction cells generalizing m with
  | nil => cases h
  | cons c cells ih =>
    obtain ⟨hc, hcells⟩ := List.pairwise_cons.1 hd
    rw [Memory.writeAll_cons]
    rcases List.mem_cons.1 h with rfl | h
    · rw [Memory.read_writeAll_other, Memory.read_write_self]
      intro d hd'
      have := hc d hd'
      simp only at this ⊢
      omega
    · exact ih hcells h

/-- An offset that held a value, or that is written, holds a value after several writes. -/
theorem Memory.isSome_read_writeAll {m : Memory} {base a : Nat} {cells : List Host.Cell}
    (h : (m.read a).isSome ∨ ∃ c ∈ cells, a = base + c.1) :
    ((m.writeAll base cells).read a).isSome := by
  induction cells generalizing m with
  | nil => simpa using h
  | cons c cells ih =>
    rw [Memory.writeAll_cons]
    apply ih
    by_cases ha : a = base + c.1
    · exact .inl (by rw [ha, Memory.read_write_self]; rfl)
    · rw [Memory.read_write_other _ _ ha]
      rcases h with h | ⟨d, hd, rfl⟩
      · exact .inl h
      · rcases List.mem_cons.1 hd with rfl | hd
        · exact absurd rfl ha
        · exact .inr ⟨d, hd, rfl⟩

theorem Memory.mem_writeAll {m : Memory} {base : Nat} {cells : List Host.Cell} {c : Host.Cell}
    (h : c ∈ m.writeAll base cells) : c ∈ m ∨ ∃ d ∈ cells, c = (base + d.1, d.2) := by
  induction cells generalizing m with
  | nil => exact .inl h
  | cons d cells ih =>
    rcases ih h with h | ⟨e, he, rfl⟩
    · exact (Memory.mem_write h).elim (fun h => .inr ⟨d, List.mem_cons_self, h⟩) .inl
    · exact .inr ⟨e, List.mem_cons_of_mem _ he, rfl⟩

/-- Writing inside a variable keeps it in canonical form and inside its length. -/
theorem Variable.writeAll_wf {v : Variable} (h : v.wf) {base : Nat} {cells : List Host.Cell}
    (hin : ∀ c ∈ cells, base + c.1 < v.size) :
    Variable.wf { v with bytes := v.bytes.writeAll base cells } := by
  refine ⟨Memory.writeAll_wf h.1 _ _, fun c hc => ?_⟩
  rcases Memory.mem_writeAll hc with hc | ⟨d, hd, rfl⟩
  · exact h.2 c hc
  · exact hin d hd

end Sys2Proof.Machine
end

