-- ==== Sys2Proof/Laws/State.lean ====
section
/-! SUPPORT. One lemma per field for each update of the state, and what putting bytes into one variable
does to every variable. -/

namespace Sys2Proof.Machine

open Sys2Proof

section Commit

variable (ret : Ret) (f : Fields) (s : State) (req : SampleReq)

@[simp] theorem commit_cfg : (commit ret f s req).cfg = s.cfg := rfl
@[simp] theorem commit_program : (commit ret f s req).program = s.program := rfl
@[simp] theorem commit_pc : (commit ret f s req).pc = s.pc + 1 := rfl
@[simp] theorem commit_vars :
    (commit ret f s req).vars = writeVar s.vars f.dst (writebackCells ret f s req) := rfl
@[simp] theorem commit_smp : (commit ret f s req).smp = s.smp := rfl
@[simp] theorem commit_srf : (commit ret f s req).srf = s.srf := rfl
@[simp] theorem commit_prd : (commit ret f s req).prd = s.prd := rfl
@[simp] theorem commit_em : (commit ret f s req).em = s.em := rfl
@[simp] theorem commit_draws : (commit ret f s req).draws = s.draws + 1 := rfl
@[simp] theorem commit_faulted : (commit ret f s req).faulted = s.faulted := rfl
@[simp] theorem commit_refused : (commit ret f s req).refused = s.refused := rfl

end Commit

section Record

variable (s t : State) (reason : Fault) (why : Refusal)

@[simp] theorem record_next : s.record (.next t) = t := rfl
@[simp] theorem record_fault : s.record (.fault reason) = { s with faulted := some reason } := rfl
@[simp] theorem record_refused : s.record (.refused why) = { s with refused := some why } := rfl

end Record

section WithFetchWord

variable (s : State) (nbits w : Nat)

@[simp] theorem withFetchWord_cfg : (s.withFetchWord nbits w).cfg = s.cfg := rfl
@[simp] theorem withFetchWord_program :
    (s.withFetchWord nbits w).program =
      placeRecord s.program s.pc (tableRecord s.cfg.codecs nbits w) := rfl
@[simp] theorem withFetchWord_pc : (s.withFetchWord nbits w).pc = s.pc := rfl
@[simp] theorem withFetchWord_vars : (s.withFetchWord nbits w).vars = s.vars := rfl
@[simp] theorem withFetchWord_smp : (s.withFetchWord nbits w).smp = s.smp := rfl
@[simp] theorem withFetchWord_srf : (s.withFetchWord nbits w).srf = s.srf := rfl
@[simp] theorem withFetchWord_prd : (s.withFetchWord nbits w).prd = s.prd := rfl
@[simp] theorem withFetchWord_em : (s.withFetchWord nbits w).em = s.em := rfl
@[simp] theorem withFetchWord_draws : (s.withFetchWord nbits w).draws = s.draws := rfl
@[simp] theorem withFetchWord_faulted : (s.withFetchWord nbits w).faulted = none := rfl
@[simp] theorem withFetchWord_refused : (s.withFetchWord nbits w).refused = none := rfl

/-- The record that is placed is the one at its index. -/
theorem getElem?_placeRecord (program : List (List Byte)) (k : Nat) (record : List Byte) :
    (placeRecord program k record)[k]? = some record := by
  unfold placeRecord
  rw [List.append_assoc, ← List.append_assoc, List.getElem?_append_right]
  all_goals
    simp only [List.length_append, List.length_take, List.length_replicate]
  · rw [show k - (min k program.length + (k - program.length)) = 0 by omega]
    rfl
  · omega

end WithFetchWord

/-! ## Putting bytes into a variable -/

section WriteVar

variable (vars : List Variable) (p : RawOperand) (cells : List Host.Cell)

@[simp] theorem writeVar_types : (writeVar vars p cells).map Variable.type = vars.map Variable.type := by
  apply List.ext_getElem?
  intro k
  simp only [writeVar, List.getElem?_map, List.getElem?_modify]
  cases vars[k]? <;> simp
  split <;> rfl

@[simp] theorem writeVar_sizes : (writeVar vars p cells).map Variable.size = vars.map Variable.size := by
  apply List.ext_getElem?
  intro k
  simp only [writeVar, List.getElem?_map, List.getElem?_modify]
  cases vars[k]? <;> simp
  split <;> rfl

theorem getElem?_writeVar_self {v : Variable} (h : vars[p.id]? = some v) :
    (writeVar vars p cells)[p.id]? = some { v with bytes := v.bytes.writeAll p.off cells } := by
  simp [writeVar, h]

theorem getElem?_writeVar_other {id : Nat} (h : id ≠ p.id) :
    (writeVar vars p cells)[id]? = vars[id]? := by
  simp [writeVar, Ne.symm h]

end WriteVar

/-! ## Reads that depend on one variable alone -/

theorem sizeOfVar_congr {s t : State} {id : Nat}
    (h : t.vars[id]?.map Variable.size = s.vars[id]?.map Variable.size) :
    t.sizeOfVar id = s.sizeOfVar id := by
  unfold State.sizeOfVar
  rw [h]

theorem declsTypeOf_congr {s t : State} {p : RawOperand}
    (h : t.vars[p.id]?.map Variable.type = s.vars[p.id]?.map Variable.type) :
    t.decls.typeOf p = s.decls.typeOf p := by
  simpa [Decls.typeOf, State.decls] using h

theorem typeOf_congr {s t : State} {p : RawOperand}
    (h : t.vars[p.id]?.map Variable.type = s.vars[p.id]?.map Variable.type) :
    t.typeOf p = s.typeOf p := by
  unfold State.typeOf
  rw [declsTypeOf_congr h]

/-- The storage of a variable depends on its type, its length and the bytes inside it. -/
theorem storageOf_congr {s t : State} {id : Nat}
    (ht : t.vars[id]?.map Variable.type = s.vars[id]?.map Variable.type)
    (hs : t.vars[id]?.map Variable.size = s.vars[id]?.map Variable.size)
    (hb : ∀ a < s.sizeOfVar id, t.byteAt id a = s.byteAt id a) : t.storageOf id = s.storageOf id := by
  unfold State.storageOf State.sizeOfVar State.byteAt at *
  cases hv : s.vars[id]? with
  | none =>
    cases hw : t.vars[id]? with
    | none => rfl
    | some w => simp [hv, hw] at ht
  | some v =>
    cases hw : t.vars[id]? with
    | none => simp [hv, hw] at ht
    | some w =>
      simp only [hv, hw, Option.map_some, Option.some.injEq, Option.getD_some, Prod.mk.injEq] at *
      refine ⟨ht, ?_⟩
      rw [hs]
      exact List.map_congr_left fun a ha => hb a (List.mem_range.1 ha)

/-- A variable that has a byte is declared. -/
theorem exists_var_of_lt_size {s : State} {id a : Nat} (h : a < s.sizeOfVar id) :
    ∃ v, s.vars[id]? = some v ∧ s.sizeOfVar id = v.size := by
  unfold State.sizeOfVar at *
  cases hv : s.vars[id]? with
  | none => simp [hv] at h
  | some v => exact ⟨v, rfl, by simp⟩

end Sys2Proof.Machine
end

