-- ==== Sys2Proof/Laws/Reads.lean ====
section
/-! SUPPORT. What reading bytes, elements, offsets and parameters answers, and when it answers. -/

namespace Sys2Proof.Machine

open Sys2Proof

/-! ## Bytes and elements -/

theorem bytesAt_isSome {s : State} {id n : Nat} {a : Nat} :
    (s.bytesAt id a n).isSome = true ↔ ∀ k < n, (s.byteAt id (a + k)).isSome = true := by
  induction n generalizing a with
  | zero => simp [State.bytesAt]
  | succ n ih =>
    have : (s.bytesAt id a (n + 1)).isSome = true ↔
        (s.byteAt id a).isSome = true ∧ (s.bytesAt id (a + 1) n).isSome = true := by
      rw [State.bytesAt]
      cases s.byteAt id a <;> cases s.bytesAt id (a + 1) n <;> simp
    rw [this, ih]
    constructor
    · rintro ⟨h0, h⟩ k hk
      cases k with
      | zero => exact h0
      | succ k => simpa [Nat.add_assoc, Nat.add_comm 1] using h k (by omega)
    · intro h
      exact ⟨h 0 (by omega), fun k hk => by
        simpa [Nat.add_assoc, Nat.add_comm 1] using h (k + 1) (by omega)⟩

theorem bytesAt_congr {s t : State} {id n : Nat} {a : Nat}
    (h : ∀ k < n, t.byteAt id (a + k) = s.byteAt id (a + k)) :
    t.bytesAt id a n = s.bytesAt id a n := by
  induction n generalizing a with
  | zero => rfl
  | succ n ih =>
    rw [State.bytesAt, State.bytesAt, show t.byteAt id a = s.byteAt id a from h 0 (by omega),
      ih fun k hk => by simpa [Nat.add_assoc, Nat.add_comm 1] using h (k + 1) (by omega)]

theorem elemAt_isSome {s : State} {p : RawOperand} {size i : Nat} :
    (s.elemAt p size i).isSome = true ↔
      ∀ k < size, (s.byteAt p.id (p.off + i * size + k)).isSome = true := by
  rw [State.elemAt, Option.isSome_map, bytesAt_isSome]

/-- Reading elements answers exactly when each is there, and then answers each. -/
theorem elemsAt_eq_some {s : State} {p : RawOperand} {size n : Nat} {i : Nat} {es : List Elem} :
    s.elemsAt p size i n = some es ↔
      es.length = n ∧ ∀ j < n, ∃ e, es[j]? = some e ∧ s.elemAt p size (i + j) = some e := by
  induction n generalizing i es with
  | zero => simp [State.elemsAt, eq_comm (a := ([] : List Elem))]
  | succ n ih =>
    rw [State.elemsAt]
    constructor
    · intro h
      cases he : s.elemAt p size i with
      | none => simp [he] at h
      | some e =>
        cases hr : s.elemsAt p size (i + 1) n with
        | none => simp [he, hr] at h
        | some rest =>
          simp only [he, hr, Option.some.injEq] at h
          subst h
          obtain ⟨hlen, hrest⟩ := ih.1 hr
          refine ⟨by simp [hlen], fun j hj => ?_⟩
          cases j with
          | zero => exact ⟨e, rfl, he⟩
          | succ j =>
            obtain ⟨e', h1, h2⟩ := hrest j (by omega)
            exact ⟨e', by simpa using h1, by rwa [show i + (j + 1) = i + 1 + j by omega]⟩
    · rintro ⟨hlen, h⟩
      cases es with
      | nil => simp at hlen
      | cons e rest =>
        obtain ⟨e', h1, h2⟩ := h 0 (by omega)
        simp only [List.getElem?_cons_zero, Option.some.injEq] at h1
        subst h1
        have hr : s.elemsAt p size (i + 1) n = some rest := by
          refine ih.2 ⟨by simpa using hlen, fun j hj => ?_⟩
          obtain ⟨e', h1, h2⟩ := h (j + 1) (by omega)
          exact ⟨e', by simpa using h1, by rwa [show i + 1 + j = i + (j + 1) by omega]⟩
        rw [Nat.add_zero] at h2
        simp [h2, hr]

theorem elemsAt_congr {s t : State} {p : RawOperand} {size n : Nat} {i : Nat}
    (h : ∀ j < n, t.elemAt p size (i + j) = s.elemAt p size (i + j)) :
    t.elemsAt p size i n = s.elemsAt p size i n := by
  induction n generalizing i with
  | zero => rfl
  | succ n ih =>
    rw [State.elemsAt, State.elemsAt,
      show t.elemAt p size i = s.elemAt p size i from h 0 (by omega),
      ih fun j hj => by simpa [Nat.add_assoc, Nat.add_comm 1] using h (j + 1) (by omega)]

theorem elemsAt_isSome {s : State} {p : RawOperand} {size n : Nat} {i : Nat} :
    (s.elemsAt p size i n).isSome = true ↔ ∀ j < n, (s.elemAt p size (i + j)).isSome = true := by
  induction n generalizing i with
  | zero => simp [State.elemsAt]
  | succ n ih =>
    have : (s.elemsAt p size i (n + 1)).isSome = true ↔
        (s.elemAt p size i).isSome = true ∧ (s.elemsAt p size (i + 1) n).isSome = true := by
      rw [State.elemsAt]
      cases s.elemAt p size i <;> cases s.elemsAt p size (i + 1) n <;> simp
    rw [this, ih]
    constructor
    · rintro ⟨h0, h⟩ j hj
      cases j with
      | zero => exact h0
      | succ j => simpa [Nat.add_assoc, Nat.add_comm 1] using h j (by omega)
    · intro h
      exact ⟨h 0 (by omega), fun j hj => by
        simpa [Nat.add_assoc, Nat.add_comm 1] using h (j + 1) (by omega)⟩

/-! ## Offsets -/

/-- The high nibble of a 16-bit value read from two bytes is that of the second byte (R31). -/
theorem reservedBits_of_bytes (low high : Byte) :
    reservedBits ((elemOfBytes [low, high]).setWidth 16) = high.extractLsb' 4 4 := by
  unfold reservedBits elemOfBytes elemOfBytes elemOfBytes
  ext i hi
  simp only [BitVec.getElem_extractLsb', BitVec.getLsbD_setWidth, BitVec.getLsbD_or,
    BitVec.getLsbD_shiftLeft]
  have h1 : 12 + i < 16 := by omega
  have h2 : 12 + i < 32 := by omega
  have h3 : ¬ 12 + i < 8 := by omega
  have h4 : 12 + i - 8 = 4 + i := by omega
  have h5 : 4 + i < 32 := by omega
  have h6 : low.getLsbD (12 + i) = false := BitVec.getLsbD_of_ge _ _ (by omega)
  simp [h1, h2, h3, h4, h5, h6]

/-- Bits 15..12 are 0 exactly in the values below `0x1000`. -/
theorem reservedBits_eq_zero (a : BitVec 16) : reservedBits a = 0 ↔ a.toNat < 0x1000 := by
  have := a.isLt
  unfold reservedBits
  rw [BitVec.toNat_eq, BitVec.extractLsb'_toNat, Nat.shiftRight_eq_div_pow,
    show (0 : BitVec 4).toNat = 0 from rfl]
  omega

/-- The number that two bytes spell (R31). -/
theorem toNat_of_bytes (low high : Byte) :
    ((elemOfBytes [low, high]).setWidth 16).toNat = 256 * high.toNat + low.toNat := by
  have h : (elemOfBytes [low, high]).setWidth 16 = high ++ low := by
    unfold elemOfBytes elemOfBytes elemOfBytes
    apply BitVec.eq_of_getLsbD_eq
    intro i hi
    simp only [BitVec.getLsbD_append, BitVec.getLsbD_setWidth, BitVec.getLsbD_or, BitVec.getLsbD_shiftLeft]
    by_cases h8 : i < 8
    · simp [h8, hi]
      omega
    · have h1 : i - 8 < 8 := by omega
      have h2 : i < 32 := by omega
      have h3 : i - 8 < 32 := by omega
      simp [h8, hi, h1, h2, h3, BitVec.getLsbD_of_ge low i (by omega)]
  rw [h, BitVec.toNat_append, Nat.shiftLeft_eq, Nat.mul_comm,
    ← Nat.two_pow_add_eq_or_of_lt low.isLt]

/-- The two bytes of a variable read as R19 describes. -/
theorem bytesAt_two {s : State} {id : Nat} {low high : Byte} (h0 : s.byteAt id 0 = some low)
    (h1 : s.byteAt id 1 = some high) : s.bytesAt id 0 2 = some [low, high] := by
  simp [State.bytesAt, h0, h1]

/-- Two bytes that cannot both be read. -/
theorem bytesAt_two_eq_none {s : State} {id k : Nat} (hk : k < 2) (h : s.byteAt id k = none) :
    s.bytesAt id 0 2 = none := by
  rw [← Option.not_isSome_iff_eq_none, bytesAt_isSome]
  intro hall
  have := hall k hk
  rw [Nat.zero_add, h] at this
  cases this

@[simp] theorem orUnwritten_eq_ok {o : Option (BitVec 16)} {a : BitVec 16} :
    orUnwritten o = .ok a ↔ o = some a := by
  cases o <;> simp [orUnwritten]

@[simp] theorem orUnwritten_eq_error {o : Option (BitVec 16)} {reason : Fault} :
    orUnwritten o = .error reason ↔ o = none ∧ reason = .unwrittenRead := by
  cases o <;> simp [orUnwritten, eq_comm]

/-- An operand whose value is open is read through the uninterpreted function. -/
theorem readScalar16_open {s : State} {opnd : ScalarOperand} (h : ScalarIsOpen s opnd) :
    readScalar16 s opnd = orUnwritten (openScalar16 s opnd) := by
  unfold ScalarIsOpen at h
  unfold readScalar16
  cases hr : s.cfg.scalarReading <;> cases opnd <;> simp_all

theorem readScalar16_imm {s : State} (h : s.cfg.scalarReading = .recommended) (a : BitVec 16) :
    readScalar16 s (.imm a) = .ok a := by
  simp [readScalar16, h]

theorem readScalar16_var {s : State} (h : s.cfg.scalarReading = .recommended) (id : Nat) :
    readScalar16 s (.var id) =
      orUnwritten ((s.bytesAt id 0 2).map fun bs => (elemOfBytes bs).setWidth 16) := by
  simp [readScalar16, h]

/-- Every operand is read in one of three ways. -/
theorem scalar_cases (s : State) (opnd : ScalarOperand) :
    ScalarIsOpen s opnd ∨ s.cfg.scalarReading = .recommended ∧ ((∃ a, opnd = .imm a) ∨ ∃ id, opnd = .var id) := by
  unfold ScalarIsOpen
  cases hr : s.cfg.scalarReading <;> cases opnd <;> simp

theorem offsetsReady_open {s : State} {opnd : ScalarOperand} (h : ScalarIsOpen s opnd) :
    OffsetsReady s opnd ↔ ∃ a, openScalar16 s opnd = some a ∧ reservedBits a = 0 := by
  unfold ScalarIsOpen at h
  unfold OffsetsReady
  cases hr : s.cfg.scalarReading <;> cases opnd <;> simp_all

/-- Reading a scalar operand fails in one way only. -/
theorem readScalar16_eq_error {s : State} {opnd : ScalarOperand} {reason : Fault}
    (h : readScalar16 s opnd = .error reason) : reason = .unwrittenRead := by
  rcases scalar_cases s opnd with ho | ⟨hr, ⟨a, rfl⟩ | ⟨id, rfl⟩⟩
  · rw [readScalar16_open ho] at h
    exact (orUnwritten_eq_error.1 h).2
  · simp [readScalar16_imm hr] at h
  · rw [readScalar16_var hr] at h
    exact (orUnwritten_eq_error.1 h).2

/-- `Aoffimmi` is ready exactly when it can be read and its reserved bits are 0. -/
theorem offsetsReady_iff {s : State} {opnd : ScalarOperand} :
    OffsetsReady s opnd ↔ ∃ a, readScalar16 s opnd = .ok a ∧ reservedBits a = 0 := by
  rcases scalar_cases s opnd with ho | ⟨hr, ⟨a, rfl⟩ | ⟨id, rfl⟩⟩
  · rw [offsetsReady_open ho, readScalar16_open ho]
    simp
  · simp [OffsetsReady, hr, readScalar16_imm hr]
  · rw [readScalar16_var hr]
    simp only [OffsetsReady, hr]
    constructor
    · rintro ⟨low, high, h0, h1, h⟩
      exact ⟨_, orUnwritten_eq_ok.2 (by rw [bytesAt_two h0 h1]; rfl), by rwa [reservedBits_of_bytes]⟩
    · rintro ⟨a, h, h0⟩
      rw [orUnwritten_eq_ok] at h
      cases hl : s.byteAt id 0 with
      | none => simp [bytesAt_two_eq_none (by decide) hl] at h
      | some low =>
        cases hh : s.byteAt id 1 with
        | none => simp [bytesAt_two_eq_none (by decide) hh] at h
        | some high =>
          simp only [bytesAt_two hl hh, Option.map_some, Option.some.injEq] at h
          rw [← h, reservedBits_of_bytes] at h0
          exact ⟨low, high, rfl, rfl, h0⟩

/-- Reading a scalar operand depends on the parameters, on the variables it names and on the bytes that
`ScalarReads` gives. -/
theorem readScalar16_congr {s t : State} {opnd : ScalarOperand} (hcfg : t.cfg = s.cfg)
    (hvars : ∀ id ∈ opnd.names, t.vars[id]?.map Variable.type = s.vars[id]?.map Variable.type ∧
      t.vars[id]?.map Variable.size = s.vars[id]?.map Variable.size)
    (hb : ∀ id a, ScalarReads s opnd id a → t.byteAt id a = s.byteAt id a) :
    readScalar16 t opnd = readScalar16 s opnd := by
  rcases scalar_cases s opnd with ho | ⟨hr, ⟨a, rfl⟩ | ⟨id, rfl⟩⟩
  · have ht : ScalarIsOpen t opnd := by
      unfold ScalarIsOpen at *
      rwa [hcfg]
    rw [readScalar16_open ho, readScalar16_open ht]
    have : openScalar16 t opnd = openScalar16 s opnd := by
      unfold openScalar16
      congr 1
      refine List.map_congr_left fun id hid => ?_
      refine storageOf_congr (hvars id hid).1 (hvars id hid).2 fun a ha => hb id a ?_
      unfold ScalarIsOpen at ho
      unfold ScalarReads
      split <;> simp_all
    rw [this]
  · rw [readScalar16_imm hr, readScalar16_imm (hcfg ▸ hr)]
  · rw [readScalar16_var hr, readScalar16_var (hcfg ▸ hr), bytesAt_congr (s := s)]
    intro k hk
    rw [Nat.zero_add]
    exact hb id k (by simp [ScalarReads, hr, hk])

theorem readOffsets_ok_iff {f : Fields} {s : State} :
    (∃ o, readOffsets f s = .ok o) ↔ OffsetsReady s f.aoffimmi := by
  rw [offsetsReady_iff]
  unfold readOffsets
  cases readScalar16 s f.aoffimmi with
  | error e => simp
  | ok a =>
    simp only
    split
    · simp [*]
    · rename_i h
      constructor
      · rintro ⟨_, h'⟩
        cases h'
      · rintro ⟨_, h', h0⟩
        cases h'
        exact absurd h0 h

/-- What reading the offsets answers. -/
theorem readOffsets_eq_ok {f : Fields} {s : State} {o : Offsets} (h : readOffsets f s = .ok o) :
    ∃ a, readScalar16 s f.aoffimmi = .ok a ∧ reservedBits a = 0 ∧ o = offsetsOf a := by
  unfold readOffsets at h
  cases hr : readScalar16 s f.aoffimmi with
  | error e => simp [hr] at h
  | ok a =>
    simp only [hr] at h
    split at h
    · rename_i h0
      simp only [Except.ok.injEq] at h
      exact ⟨a, rfl, h0, h.symm⟩
    · cases h

/-! ## Parameters -/

theorem readParam_eq_ok {s : State} {size n : Nat} {p : RawOperand} {es : List Elem} :
    readParam s size n p = .ok es ↔
      p.off + n * size ≤ s.sizeOfVar p.id ∧ s.elemsAt p size 0 n = some es := by
  unfold readParam
  split
  · rename_i h
    cases s.elemsAt p size 0 n <;> simp [h]
  · rename_i h
    simp [h]

/-- What reading the parameters answers: an entry per name, the elements of each supplied parameter, and
zeros for each skipped one. -/
theorem readParams_eq_ok {s : State} {size n : Nat} {names : List ParamName} {ps : List RawOperand}
    {params : List (ParamName × List Elem)} (h : readParams s size n names ps = .ok params) :
    params.map Prod.fst = names ∧
      (∀ (k : Nat) (name : ParamName) (es : List Elem), params[k]? = some (name, es) →
        match ps[k]? with
        | some p => readParam s size n p = .ok es
        | none => es = List.replicate n 0) := by
  induction names generalizing ps params with
  | nil =>
    simp only [readParams, Except.ok.injEq] at h
    subst h
    simp
  | cons name names ih =>
    cases ps with
    | nil =>
      simp only [readParams] at h
      cases hr : readParams s size n names [] with
      | error e => simp [hr] at h
      | ok rest =>
        simp only [hr, Except.ok.injEq] at h
        subst h
        obtain ⟨h1, h2⟩ := ih hr
        refine ⟨by simp [h1], fun k name' es hk => ?_⟩
        cases k with
        | zero =>
          simp only [List.getElem?_cons_zero, Option.some.injEq, Prod.mk.injEq] at hk
          simpa using hk.2.symm
        | succ k => simpa using h2 k name' es (by simpa using hk)
    | cons p ps =>
      simp only [readParams] at h
      cases hp : readParam s size n p with
      | error e => simp [hp] at h
      | ok es₀ =>
        cases hr : readParams s size n names ps with
        | error e => simp [hp, hr] at h
        | ok rest =>
          simp only [hp, hr, Except.ok.injEq] at h
          subst h
          obtain ⟨h1, h2⟩ := ih hr
          refine ⟨by simp [h1], fun k name' es hk => ?_⟩
          cases k with
          | zero =>
            simp only [List.getElem?_cons_zero, Option.some.injEq, Prod.mk.injEq] at hk
            simpa [hk.2] using hp
          | succ k => simpa using h2 k name' es (by simpa using hk)

/-- Reading the parameters answers exactly when each supplied one can be read. -/
theorem readParams_ok_iff {s : State} {size n : Nat} {names : List ParamName} {ps : List RawOperand}
    (hlen : ps.length ≤ names.length) :
    (∃ params, readParams s size n names ps = .ok params) ↔
      ∀ p ∈ ps, ∃ es, readParam s size n p = .ok es := by
  induction names generalizing ps with
  | nil =>
    have : ps = [] := List.length_eq_zero_iff.1 (by simpa using hlen)
    simp [this, readParams]
  | cons name names ih =>
    cases ps with
    | nil =>
      obtain ⟨rest, hr⟩ := (ih (ps := []) (by simp)).2 (by simp)
      simp [readParams, hr]
    | cons p ps =>
      simp only [readParams, List.mem_cons, forall_eq_or_imp]
      rw [← ih (by simpa using hlen)]
      cases readParam s size n p with
      | error e => simp
      | ok es =>
        cases readParams s size n names ps with
        | error e => simp
        | ok rest => simp

/-- Reading one parameter depends on the length of its variable and on the bytes of its elements. -/
theorem readParam_congr {s t : State} {size n : Nat} {p : RawOperand}
    (hs : t.sizeOfVar p.id = s.sizeOfVar p.id)
    (hb : ∀ k < n * size, t.byteAt p.id (p.off + k) = s.byteAt p.id (p.off + k)) :
    readParam t size n p = readParam s size n p := by
  have hel (j : Nat) (hj : j < n) : t.elemAt p size j = s.elemAt p size j := by
    unfold State.elemAt
    rw [bytesAt_congr]
    intro k hk
    rw [Nat.add_assoc]
    refine hb _ ?_
    calc j * size + k < j * size + size := by omega
      _ = (j + 1) * size := by rw [Nat.succ_mul]
      _ ≤ n * size := Nat.mul_le_mul_right _ hj
  unfold readParam
  rw [hs, elemsAt_congr (s := s) (t := t) fun j hj => hel (0 + j) (by omega)]

theorem readParams_congr {s t : State} {size n : Nat} {names : List ParamName} {ps : List RawOperand}
    (h : ∀ p ∈ ps, readParam t size n p = readParam s size n p) :
    readParams t size n names ps = readParams s size n names ps := by
  induction names generalizing ps with
  | nil => rfl
  | cons a names ih =>
    cases ps with
    | nil => simp [readParams, ih (ps := []) (by simp)]
    | cons p ps =>
      simp [readParams, ih fun q hq => h q (List.mem_cons_of_mem _ hq), h p List.mem_cons_self]

end Sys2Proof.Machine
end

