-- ==== Sys2Proof/Laws/WellFormed.lean ====
section
/-! SUPPORT. What passing the checks of R64 says. -/

namespace Sys2Proof

theorem Instr.op_of (op : SampleOp) (f : Fields) : (Instr.of op f).op = op := by cases op <;> rfl

theorem Instr.fields_of (op : SampleOp) (f : Fields) : (Instr.of op f).fields = f := by
  cases op <;> rfl

theorem Instr.of_op_fields (i : Instr) : Instr.of i.op i.fields = i := by cases i <;> rfl

/-- An instruction is well formed exactly when every row of the table of checks passes. -/
theorem wellFormed_iff_checks {d : Decls} {i : Instr} :
    WellFormed d i ↔ ∀ c ∈ checks d i, c.2 = true := by
  unfold WellFormed firstIllFormed
  rw [Option.map_eq_none_iff, List.find?_eq_none]
  simp

/-- The checks look up the sampler, the surface, and the types of `Dst` and of the supplied parameters, and
nothing else of what is declared. -/
theorem checks_congr {d e : Decls} {i : Instr} (hcfg : e.cfg = d.cfg)
    (hsmp : decide (i.fields.sampler.toNat < e.numSamplers) = decide (i.fields.sampler.toNat < d.numSamplers))
    (hsrf : decide (i.fields.surface.toNat < e.numSurfaces) = decide (i.fields.surface.toNat < d.numSurfaces))
    (hdst : e.typeOf i.fields.dst = d.typeOf i.fields.dst)
    (hparams : ∀ p ∈ i.fields.params, e.typeOf p = d.typeOf p) : checks e i = checks d i := by
  have hall (tp : ElemType) : (i.fields.params.all fun p => e.typeOf p == some tp) =
      i.fields.params.all fun p => d.typeOf p == some tp := by
    rw [Bool.eq_iff_iff]
    simp only [List.all_eq_true]
    exact forall_congr' fun p => forall_congr' fun hp => by rw [hparams p hp]
  simp only [checks, cpsOk, laneControlOk, dstTypeOk, paramTypesOk, alignedOk, hcfg, hsmp, hsrf, hdst, hall]

namespace WellFormed

variable {d : Decls} {op : SampleOp} {f : Fields}

theorem check (h : WellFormed d (Instr.of op f)) {r : IllFormed} {b : Bool}
    (hm : (r, b) ∈ checks d (Instr.of op f)) : b = true :=
  wellFormed_iff_checks.1 h (r, b) hm

theorem cps (h : WellFormed d (Instr.of op f)) : cpsOk d op f = true :=
  h.check (r := .cpsNotAvailable) (by simp [checks, Instr.op_of, Instr.fields_of])

theorem lanes (h : WellFormed d (Instr.of op f)) : f.lanes = 8 ∨ f.lanes = 16 := by
  have : (listedLanes f.execSize).isSome = true :=
    h.check (r := .badExecSize) (by simp [checks, Instr.fields_of])
  unfold Fields.lanes
  unfold listedLanes at *
  split at this
  · simp [*]
  · split at this
    · simp [*]
    · cases this

theorem laneControl (h : WellFormed d (Instr.of op f)) : laneControlOk d f = true :=
  h.check (r := .badExecMaskOffset) (by simp [checks, Instr.fields_of])

theorem channels (h : WellFormed d (Instr.of op f)) : f.channels ≠ 0 := by
  have : (f.channels != 0) = true :=
    h.check (r := .noChannelEnabled) (by simp [checks, Instr.fields_of])
  simpa using this

theorem aoffimmi (h : WellFormed d (Instr.of op f)) : aoffimmiOk f = true :=
  h.check (r := .aoffimmiReserved) (by simp [checks, Instr.fields_of])

theorem sampler (h : WellFormed d (Instr.of op f)) : f.sampler.toNat < d.numSamplers := by
  have : decide (f.sampler.toNat < d.numSamplers) = true :=
    h.check (r := .badSamplerIndex) (by simp [checks, Instr.fields_of])
  simpa using this

theorem surface (h : WellFormed d (Instr.of op f)) : f.surface.toNat < d.numSurfaces := by
  have : decide (f.surface.toNat < d.numSurfaces) = true :=
    h.check (r := .badSurfaceIndex) (by simp [checks, Instr.fields_of])
  simpa using this

theorem dstType (h : WellFormed d (Instr.of op f)) : dstTypeOk d f = true :=
  h.check (r := .badDstType) (by simp [checks, Instr.fields_of])

theorem numParams (h : WellFormed d (Instr.of op f)) :
    1 ≤ f.params.length ∧ f.params.length ≤ 15 := by
  have : (decide (1 ≤ f.params.length) && decide (f.params.length ≤ 15)) = true :=
    h.check (r := .badNumParams) (by simp [checks, Instr.fields_of])
  simpa using this

theorem count (h : WellFormed d (Instr.of op f)) : f.params.length ≤ (paramNames op).length := by
  have : decide (f.params.length ≤ op.count) = true :=
    h.check (r := .tooManyParams) (by simp [checks, Instr.op_of, Instr.fields_of])
  exact of_decide_eq_true this

theorem paramTypes (h : WellFormed d (Instr.of op f)) : paramTypesOk d f = true :=
  h.check (r := .badParamType) (by simp [checks, Instr.fields_of])

theorem aligned (h : WellFormed d (Instr.of op f)) : alignedOk d f = true :=
  h.check (r := .misalignedRawOperand) (by simp [checks, Instr.fields_of])

end WellFormed

namespace Machine

variable {op : SampleOp} {f : Fields} {s : State}

/-- The element size of `Dst` is 2 or 4. -/
theorem dstSize_pos (h : WellFormed s.decls (Instr.of op f)) : 0 < dstSize f s := by
  have := h.dstType
  unfold dstSize Machine.dstType State.typeOf
  unfold dstTypeOk at this
  split at this <;> simp_all [elemSize]

/-- The common type of the parameters is F, or HF on ICLLP+. -/
theorem paramType_f_or_hf (h : WellFormed s.decls (Instr.of op f)) :
    paramType f s = .f ∨ s.cfg.platformGeIcllp = true ∧ paramType f s = .hf := by
  have h1 := h.paramTypes
  have h2 := h.numParams.1
  unfold paramType State.typeOf
  unfold paramTypesOk at h1
  cases hp : f.params with
  | nil => simp [hp] at h2
  | cons p ps =>
    simp only [hp, List.all_cons, Bool.or_eq_true, Bool.and_eq_true, beq_iff_eq] at h1
    rcases h1 with ⟨h1, -⟩ | ⟨h0, h1, -⟩
    · exact .inl (by simp [h1])
    · exact .inr ⟨h0, by simp [h1]⟩

theorem paramSize_pos (h : WellFormed s.decls (Instr.of op f)) : 0 < elemSize (paramType f s) := by
  rcases paramType_f_or_hf h with h | ⟨-, h⟩ <;> simp [h, elemSize]

theorem numBlocks_pos (h : WellFormed s.decls (Instr.of op f)) : 0 < numBlocks f := by
  have : ∀ v : BitVec 4, v ≠ 0 → 0 < popcountBelow v 4 := by decide
  exact this _ h.channels

end Machine

end Sys2Proof
end

