-- ==== Sys2Proof/Laws/Writeback.lean ====
section
/-! SUPPORT. The layout of `Dst` (R83, R86, R87) and the bytes a step writes there: they lie inside the
writeback, rise strictly, and hold what R84 to R86 say. -/

namespace Sys2Proof.Machine

open Sys2Proof

/-! ## Numbers -/

theorem grfBytes_pos (cfg : Config) : 0 < cfg.grfBytes := by
  unfold Config.grfBytes; omega

theorem four_le_grfBytes (cfg : Config) : 4 ≤ cfg.grfBytes := by
  unfold Config.grfBytes; omega

theorem le_ceilDiv_mul {a b : Nat} (hb : 0 < b) : a ≤ ceilDiv a b * b := by
  unfold ceilDiv
  have h1 := Nat.div_add_mod (a + b - 1) b
  have h2 := Nat.mod_lt (a + b - 1) hb
  rw [Nat.mul_comm] at h1
  omega

theorem ceilDiv_mul_lt {a b : Nat} (hb : 0 < b) : ceilDiv a b * b < a + b := by
  unfold ceilDiv
  have := Nat.div_mul_le_self (a + b - 1) b
  omega

/-- A channel's elements fit in its block. -/
theorem elements_le_stride (f : Fields) (s : State) : f.lanes * dstSize f s ≤ stride f s :=
  le_ceilDiv_mul (grfBytes_pos s.cfg)

/-- `S` is less than a register longer than a channel's elements. -/
theorem stride_lt (f : Fields) (s : State) : stride f s < f.lanes * dstSize f s + s.cfg.grfBytes :=
  ceilDiv_mul_lt (grfBytes_pos s.cfg)

/-- An element lies inside its channel's elements. -/
theorem element_le {i n sd : Nat} (h : i < n) : i * sd + sd ≤ n * sd := by
  rw [← Nat.succ_mul]
  exact Nat.mul_le_mul_right _ h

/-! ## Block numbers -/

theorem popcountBelow_succ (v : BitVec 4) (k : Nat) :
    popcountBelow v (k + 1) = popcountBelow v k + if v.getLsbD k then 1 else 0 := by
  unfold popcountBelow
  rw [List.range_succ, List.filter_append, List.length_append]
  cases h : v.getLsbD k <;> simp [h]

theorem popcountBelow_mono (v : BitVec 4) {j k : Nat} (h : j ≤ k) :
    popcountBelow v j ≤ popcountBelow v k := by
  induction h with
  | refl => exact Nat.le_refl _
  | step _ ih =>
    rw [popcountBelow_succ]
    omega

theorem popcountBelow_lt (v : BitVec 4) {j k : Nat} (hv : v.getLsbD j = true) (h : j < k) :
    popcountBelow v j < popcountBelow v k := by
  have := popcountBelow_mono v (Nat.succ_le_of_lt h)
  rw [popcountBelow_succ, if_pos hv] at this
  omega

theorem channel_bit_lt (c : Channel) : c.bit < 4 := by
  cases c <;> decide

/-- The block of an enabled channel ends where a later enabled channel's begins, or before. -/
theorem blockStart_add_stride_le {f : Fields} (s : State) {c d : Channel} (hc : f.enables c = true)
    (h : c.bit < d.bit) : blockStart f s c + stride f s ≤ blockStart f s d := by
  unfold blockStart blockNumber
  rw [← Nat.succ_mul]
  exact Nat.mul_le_mul_right _ (popcountBelow_lt _ hc h)

/-- The block of an enabled channel ends where the null mask register begins, or before. -/
theorem blockStart_add_stride_le_nullStart {f : Fields} (s : State) {c : Channel}
    (hc : f.enables c = true) : blockStart f s c + stride f s ≤ nullStart f s := by
  unfold blockStart blockNumber nullStart numBlocks
  rw [← Nat.succ_mul]
  exact Nat.mul_le_mul_right _ (popcountBelow_lt _ hc (channel_bit_lt c))

/-! ## The written bytes -/

theorem mem_regWrite {o n : Nat} {v : Elem} {c : Host.Cell} :
    c ∈ regWrite o n v ↔ ∃ k < n, c = (o + k, byteOf v k) := by
  simp [regWrite, eq_comm]

theorem mem_regHavoc {stamp o n : Nat} {c : Host.Cell} :
    c ∈ regHavoc stamp o n ↔ ∃ k < n, c = (o + k, Config.drawByte stamp (o + k)) := by
  simp [regHavoc, eq_comm]

theorem regWrite_rising (o n : Nat) (v : Elem) : (regWrite o n v).Pairwise fun x y => x.1 < y.1 := by
  unfold regWrite
  rw [List.pairwise_map]
  exact List.pairwise_lt_range.imp fun h => by simp only; omega

theorem regHavoc_rising (stamp o n : Nat) :
    (regHavoc stamp o n).Pairwise fun x y => x.1 < y.1 := by
  unfold regHavoc
  rw [List.pairwise_map]
  exact List.pairwise_lt_range.imp fun h => by simp only; omega

section Channel

variable {f : Fields} {s : State} {en : BitVec 16} {ret : Channel → Nat → Elem} {c : Channel}
  {x : Host.Cell}

/-- The bytes written in a channel's block: bytes of elements of enabled pixels, and the remainder. -/
theorem mem_channelCells :
    x ∈ channelCells f s en ret c ↔
      f.enables c = true ∧
        ((∃ i < f.lanes, en.getLsbD i = true ∧ ∃ k < dstSize f s,
            x = (blockStart f s c + i * dstSize f s + k, byteOf (ret c i) k)) ∨
          ∃ k < stride f s - f.lanes * dstSize f s,
            x = (blockStart f s c + f.lanes * dstSize f s + k,
              Config.drawByte s.draws (blockStart f s c + f.lanes * dstSize f s + k))) := by
  unfold channelCells
  split
  · rename_i h
    simp only [List.mem_append, List.mem_flatMap, List.mem_range, h, true_and, mem_regHavoc]
    refine or_congr (exists_congr fun i => and_congr_right fun _ => ?_) Iff.rfl
    split
    · rename_i hen
      simp only [hen, true_and, mem_regWrite]
    · rename_i hen
      simp [hen]
  · rename_i h
    simp [h]

/-- They lie inside the block. -/
theorem channelCells_inside (h : x ∈ channelCells f s en ret c) :
    blockStart f s c ≤ x.1 ∧ x.1 < blockStart f s c + stride f s := by
  have hs := elements_le_stride f s
  obtain ⟨-, ⟨i, hi, -, k, hk, rfl⟩ | ⟨k, hk, rfl⟩⟩ := mem_channelCells.1 h
  · have := element_le (sd := dstSize f s) hi
    exact ⟨by simp only; omega, by simp only; omega⟩
  · exact ⟨by simp only; omega, by simp only; omega⟩

theorem channelCells_rising :
    (channelCells f s en ret c).Pairwise fun x y => x.1 < y.1 := by
  unfold channelCells
  split
  · refine List.pairwise_append.2 ⟨List.pairwise_flatMap.2 ⟨fun i _ => ?_, ?_⟩,
      regHavoc_rising _ _ _, fun x hx y hy => ?_⟩
    · split
      · exact regWrite_rising _ _ _
      · exact .nil
    · refine List.pairwise_lt_range.imp fun {i j} hij x hx y hy => ?_
      split at hx
      case isFalse => cases hx
      split at hy
      case isFalse => cases hy
      obtain ⟨k, hk, rfl⟩ := mem_regWrite.1 hx
      obtain ⟨l, -, rfl⟩ := mem_regWrite.1 hy
      have := element_le (sd := dstSize f s) hij
      simp only
      omega
    · obtain ⟨i, hi, hx⟩ := List.mem_flatMap.1 hx
      obtain ⟨l, -, rfl⟩ := mem_regHavoc.1 hy
      split at hx
      · obtain ⟨k, hk, rfl⟩ := mem_regWrite.1 hx
        have := element_le (sd := dstSize f s) (List.mem_range.1 hi)
        simp only
        omega
      · cases hx
  · exact .nil

end Channel

section Null

variable {f : Fields} {s : State} {en : BitVec 16} {null : Nat → Bool} {x : Host.Cell}

/-- The bytes written in the pixel null mask register: the dword, and the rest of the register. -/
theorem mem_nullCells :
    x ∈ nullCells f s en null ↔
      f.pnm = true ∧
        ((∃ k < 4, x = (nullStart f s + k,
            byteOf (nullDWord f.lanes en null (Config.drawDWord s.draws)) k)) ∨
          ∃ k < s.cfg.grfBytes - 4, x = (nullStart f s + 4 + k,
            Config.drawByte s.draws (nullStart f s + 4 + k))) := by
  unfold nullCells
  split
  · rename_i h
    simp only [List.mem_append, mem_regWrite, mem_regHavoc, h, true_and]
  · rename_i h
    simp [h]

theorem nullCells_inside (h : x ∈ nullCells f s en null) :
    f.pnm = true ∧ nullStart f s ≤ x.1 ∧ x.1 < nullStart f s + s.cfg.grfBytes := by
  have hg := four_le_grfBytes s.cfg
  obtain ⟨hp, ⟨k, hk, rfl⟩ | ⟨k, hk, rfl⟩⟩ := mem_nullCells.1 h
  · exact ⟨hp, by simp only; omega, by simp only; omega⟩
  · exact ⟨hp, by simp only; omega, by simp only; omega⟩

theorem nullCells_rising : (nullCells f s en null).Pairwise fun x y => x.1 < y.1 := by
  unfold nullCells
  split
  · refine List.pairwise_append.2 ⟨regWrite_rising _ _ _, regHavoc_rising _ _ _,
      fun x hx y hy => ?_⟩
    obtain ⟨k, hk, rfl⟩ := mem_regWrite.1 hx
    obtain ⟨l, -, rfl⟩ := mem_regHavoc.1 hy
    simp only
    omega
  · exact .nil

end Null

section Writeback

variable {ret : Ret} {f : Fields} {s : State} {req : SampleReq} {x : Host.Cell}

theorem mem_writebackCells :
    x ∈ writebackCells ret f s req ↔
      (∃ c, x ∈ channelCells f s req.en (ret (sampled f s req) s.draws) c) ∨
        x ∈ nullCells f s req.en (sampled f s req).null := by
  unfold writebackCells
  rw [List.mem_append, List.mem_flatMap]
  refine or_congr ⟨fun ⟨c, _, h⟩ => ⟨c, h⟩, fun ⟨c, h⟩ => ⟨c, ?_, h⟩⟩ Iff.rfl
  cases c <;> decide

/-- Every byte written lies inside the writeback (R87). -/
theorem writebackCells_inside (h : x ∈ writebackCells ret f s req) :
    x.1 < writebackBytes f s := by
  unfold writebackBytes
  rcases mem_writebackCells.1 h with ⟨c, hc⟩ | hn
  · have h1 := channelCells_inside hc
    have h2 := blockStart_add_stride_le_nullStart s (mem_channelCells.1 hc).1
    unfold nullStart at h2
    omega
  · obtain ⟨hp, -, h1⟩ := nullCells_inside hn
    unfold nullStart at h1
    rw [if_pos hp]
    exact h1

/-- The bytes are written at strictly rising offsets: no byte twice. -/
theorem writebackCells_rising (ret : Ret) (f : Fields) (s : State) (req : SampleReq) :
    (writebackCells ret f s req).Pairwise fun x y => x.1 < y.1 := by
  refine List.pairwise_append.2 ⟨List.pairwise_flatMap.2 ⟨fun c _ => channelCells_rising, ?_⟩,
    nullCells_rising, fun x hx y hy => ?_⟩
  · have hall : Channel.all.Pairwise fun c d => c.bit < d.bit := by decide
    refine hall.imp fun hcd x hx y hy => ?_
    have h1 := channelCells_inside hx
    have h2 := channelCells_inside hy
    have h3 := blockStart_add_stride_le s (mem_channelCells.1 hx).1 hcd
    omega
  · obtain ⟨c, -, hx⟩ := List.mem_flatMap.1 hx
    have h1 := channelCells_inside hx
    have h2 := blockStart_add_stride_le_nullStart s (mem_channelCells.1 hx).1
    have h3 := nullCells_inside hy
    omega

theorem writebackCells_distinct (ret : Ret) (f : Fields) (s : State) (req : SampleReq) :
    (writebackCells ret f s req).Pairwise fun x y => x.1 ≠ y.1 :=
  (writebackCells_rising ret f s req).imp Nat.ne_of_lt

end Writeback

end Sys2Proof.Machine
end

