-- ==== Sys2Proof/Laws/Common.lean ====
section
/-! SUPPORT. The common step: what it answers and when (R73), said once for the later proofs to cite. -/

namespace Sys2Proof.Machine

open Sys2Proof

variable {op : SampleOp} {ret : Ret} {f : Fields} {s : State} {req : SampleReq}

/-- Gathering answers exactly when each of its parts does, and then answers this request. -/
theorem gather_eq_ok :
    gather op f s = .ok req ↔
      ∃ en offsets params, enabledPixels f s = .ok en ∧ readOffsets f s = .ok offsets ∧
        readParams s (elemSize (paramType f s)) f.lanes (paramNames op) f.params = .ok params ∧
        biasOk (paramType f s) params = true ∧ checkWriteback f s = .ok () ∧
        req = { op, cps := f.cps, nonuni := f.nonuni, pnm := f.pnm, n := f.lanes, en,
                channels := f.channels, offU := offsets.u, offV := offsets.v, offR := offsets.r,
                surfaceType := surfaceType f s, tp := paramType f s, td := dstType f s, params } := by
  unfold gather
  cases enabledPixels f s with
  | error e => simp
  | ok en =>
    cases readOffsets f s with
    | error e => simp
    | ok offsets =>
      cases readParams s (elemSize (paramType f s)) f.lanes (paramNames op) f.params with
      | error e => simp
      | ok params =>
        simp only
        split
        · rename_i hb
          cases checkWriteback f s with
          | error e => simp
          | ok u =>
            refine ⟨fun h => ⟨en, offsets, params, rfl, rfl, rfl, hb, rfl, (Except.ok.inj h).symm⟩, ?_⟩
            rintro ⟨_, _, _, h1, h2, h3, -, -, rfl⟩
            cases h1
            cases h2
            cases h3
            rfl
        · rename_i hb
          simp [hb]

/-- The common step answers a next state exactly when the instruction is well formed and the request can
be gathered, and then it is this one. -/
theorem sampleStep_eq_next {t : State} :
    sampleStep op ret f s = .next t ↔
      WellFormed s.decls (Instr.of op f) ∧ ∃ req, gather op f s = .ok req ∧ t = commit ret f s req := by
  unfold sampleStep WellFormed
  cases firstIllFormed s.decls (Instr.of op f) with
  | some r => simp [refuse]
  | none =>
    cases gather op f s with
    | error e => simp [raise]
    | ok req => simp [eq_comm]

/-- It faults exactly when the instruction is well formed and gathering fails for that reason. -/
theorem sampleStep_eq_fault {reason : Fault} :
    sampleStep op ret f s = .fault reason ↔
      WellFormed s.decls (Instr.of op f) ∧ gather op f s = .error reason := by
  unfold sampleStep WellFormed
  cases firstIllFormed s.decls (Instr.of op f) with
  | some r => simp [refuse]
  | none =>
    cases gather op f s with
    | error e => simp [raise]
    | ok req => simp

/-- It refuses exactly an ill-formed instruction, with the first check that fails. -/
theorem sampleStep_eq_refused {why : Refusal} :
    sampleStep op ret f s = .refused why ↔
      ∃ r, firstIllFormed s.decls (Instr.of op f) = some r ∧ why = .illFormed r := by
  unfold sampleStep
  cases firstIllFormed s.decls (Instr.of op f) with
  | some r => simp [refuse, eq_comm]
  | none =>
    cases gather op f s with
    | error e => simp [raise]
    | ok req => simp

/-- Each operation runs the common step; `LOD` with its own results. -/
theorem exec_of (op : SampleOp) (f : Fields) (s : State) :
    exec (Instr.of op f) s = sampleStep op (if op = .lod then retLod else retData) f s := by
  cases op <;> rfl

theorem enabledPixels_eq_ok {en : BitVec 16} :
    enabledPixels f s = .ok en ↔
      ∃ pm, predEval s.cfg s.prd s.em f.pred f.emctrl f.lanes = some pm ∧
        en = laneEnable s.cfg s.em f.emctrl f.lanes &&& pm := by
  unfold enabledPixels
  cases predEval s.cfg s.prd s.em f.pred f.emctrl f.lanes <;> simp [eq_comm]

theorem enabledPixels_ok_iff :
    (∃ en, enabledPixels f s = .ok en) ↔
      (predEval s.cfg s.prd s.em f.pred f.emctrl f.lanes).isSome = true := by
  unfold enabledPixels
  cases predEval s.cfg s.prd s.em f.pred f.emctrl f.lanes <;> simp

/-- The writeback check passes exactly when the writeback fits and the overlap rule holds. -/
theorem checkWriteback_eq_ok :
    checkWriteback f s = .ok () ↔
      f.dst.off + writebackBytes f s ≤ s.sizeOfVar f.dst.id ∧
        (s.cfg.allowDstParamOverlap = true ∨ dstMeetsRead f s = false) := by
  unfold checkWriteback
  split
  · rename_i h
    cases s.cfg.allowDstParamOverlap <;> cases dstMeetsRead f s <;> simp [h]
  · rename_i h
    simp [h]

theorem rangesMeet_iff {a la b lb : Nat} (hla : 0 < la) (hlb : 0 < lb) :
    rangesMeet a la b lb = true ↔ ∃ x, (a ≤ x ∧ x < a + la) ∧ b ≤ x ∧ x < b + lb := by
  unfold rangesMeet
  simp only [Bool.and_eq_true, decide_eq_true_eq]
  constructor
  · rintro ⟨h1, h2⟩
    exact ⟨max a b, by omega, by omega⟩
  · rintro ⟨x, h1, h2⟩
    omega

theorem writebackBytes_pos (h : WellFormed s.decls (Instr.of op f)) : 0 < writebackBytes f s := by
  have h1 := numBlocks_pos h
  have h2 := dstSize_pos h
  have h3 : 0 < f.lanes := by rcases h.lanes with h | h <;> omega
  have h4 := elements_le_stride f s
  have h5 := Nat.mul_pos h3 h2
  have h6 : 0 < numBlocks f * stride f s := Nat.mul_pos h1 (by omega)
  unfold writebackBytes
  omega

theorem paramBytes_pos (h : WellFormed s.decls (Instr.of op f)) : 0 < paramBytes f s := by
  have h3 : 0 < f.lanes := by rcases h.lanes with h | h <;> omega
  exact Nat.mul_pos h3 (paramSize_pos h)

/-- The overlap test says whether some byte of the writeback must be kept apart from what was read. -/
theorem dstMeetsRead_iff (h : WellFormed s.decls (Instr.of op f)) :
    dstMeetsRead f s = true ↔ ∃ a, InWriteback f s f.dst.id a ∧ KeptApart f s f.dst.id a := by
  have hw := writebackBytes_pos h
  have hp := paramBytes_pos h
  unfold dstMeetsRead InWriteback KeptApart InParam
  rw [Bool.or_eq_true, List.any_eq_true]
  constructor
  · rintro (⟨p, hmem, hx⟩ | hx)
    · simp only [Bool.and_eq_true, beq_iff_eq] at hx
      obtain ⟨x, hx1, hx2⟩ := (rangesMeet_iff hw hp).1 hx.2
      exact ⟨x, ⟨rfl, hx1.1, hx1.2⟩, .inl ⟨p, hmem, hx.1, hx2.1, hx2.2⟩⟩
    · obtain ⟨id, hid, hx⟩ := List.any_eq_true.1 hx
      simp only [Bool.and_eq_true, beq_iff_eq, rangesMeet, decide_eq_true_eq] at hx
      obtain ⟨rfl, h1, h2⟩ := hx
      exact ⟨f.dst.off, ⟨rfl, by omega, by omega⟩, .inr ⟨hid, by omega⟩⟩
  · rintro ⟨x, ⟨-, hx1, hx2⟩, (⟨p, hmem, hid, h1, h2⟩ | ⟨ha, h1⟩)⟩
    · refine .inl ⟨p, hmem, ?_⟩
      simp only [Bool.and_eq_true, beq_iff_eq]
      exact ⟨hid, (rangesMeet_iff hw hp).2 ⟨x, ⟨hx1, hx2⟩, h1, h2⟩⟩
    · refine .inr ?_
      refine List.any_eq_true.2 ⟨_, ha, ?_⟩
      simp only [beq_self_eq_true, Bool.true_and, rangesMeet, Bool.and_eq_true, decide_eq_true_eq]
      omega

/-! ## What was gathered -/

/-- The elements of a supplied parameter that can be read. -/
theorem readParam_ok_iff {size n : Nat} {p : RawOperand} :
    (∃ es, readParam s size n p = .ok es) ↔
      p.off + n * size ≤ s.sizeOfVar p.id ∧
        ∀ k < n * size, (s.byteAt p.id (p.off + k)).isSome = true := by
  simp only [readParam_eq_ok]
  rw [exists_and_left]
  refine and_congr_right fun _ => ?_
  rw [← Option.isSome_iff_exists, elemsAt_isSome]
  constructor
  · intro h k hk
    have hs : 0 < size := by
      rcases Nat.eq_zero_or_pos size with h0 | h0
      · simp [h0] at hk
      · exact h0
    have hdiv : k / size < n := Nat.div_lt_of_lt_mul (by rwa [Nat.mul_comm])
    have := elemAt_isSome.1 (h (k / size) hdiv) (k % size) (Nat.mod_lt _ hs)
    have hk' := Nat.div_add_mod k size
    rw [Nat.mul_comm] at hk'
    rwa [Nat.zero_add, Nat.add_assoc, hk'] at this
  · intro h j hj
    refine elemAt_isSome.2 fun k hk => ?_
    have := element_le (sd := size) hj
    have h' := h (j * size + k) (by omega)
    rwa [Nat.zero_add, Nat.add_assoc]

/-- The bias rule, told of the parameters that were read: a skipped bias is 0 and in range. -/
theorem biasOk_iff {size n : Nat} {tp : ElemType} {names : List ParamName} {ps : List RawOperand}
    {params : List (ParamName × List Elem)} (htp : tp = .f ∨ tp = .hf)
    (h : readParams s size n names ps = .ok params) :
    biasOk tp params = true ↔
      ∀ p, (ParamName.bias, p) ∈ names.zip ps → ∀ i < n, ∀ e, s.elemAt p size i = some e →
        biasInRange tp e = true := by
  obtain ⟨hn, hv⟩ := readParams_eq_ok h
  unfold biasOk
  rw [List.all_eq_true]
  constructor
  · intro hall p hp i hi e he
    obtain ⟨k, hk⟩ := List.mem_iff_getElem?.1 hp
    rw [List.getElem?_zip_eq_some] at hk
    obtain ⟨es, hes⟩ : ∃ es, params[k]? = some (ParamName.bias, es) := by
      have := hk.1
      rw [← hn, List.getElem?_map] at this
      obtain ⟨⟨a, b⟩, hb, hc⟩ := Option.map_eq_some_iff.1 this
      exact ⟨b, by rw [hb]; exact congrArg (fun x => some (x, b)) hc⟩
    have h1 := hv k _ es hes
    simp only [hk.2, readParam_eq_ok, elemsAt_eq_some] at h1
    obtain ⟨e', h2, h3⟩ := h1.2.2 i hi
    rw [Nat.zero_add, he] at h3
    have h4 := hall _ (List.mem_of_getElem? hes)
    simp only [bne_self_eq_false, Bool.false_or, List.all_eq_true] at h4
    cases h3
    exact h4 _ (List.mem_of_getElem? h2)
  · rintro hall ⟨name, es⟩ hx
    obtain ⟨k, hk⟩ := List.mem_iff_getElem?.1 hx
    have h1 := hv k _ es hk
    by_cases hname : name = .bias
    · subst hname
      simp only [bne_self_eq_false, Bool.false_or, List.all_eq_true]
      intro e he
      cases hp : ps[k]? with
      | none =>
        simp only [hp] at h1
        rw [h1] at he
        rw [List.eq_of_mem_replicate he]
        rcases htp with rfl | rfl <;> decide
      | some p =>
        simp only [hp, readParam_eq_ok, elemsAt_eq_some] at h1
        obtain ⟨j, hj⟩ := List.mem_iff_getElem?.1 he
        have hjn : j < n := by
          rw [← h1.2.1]
          exact (List.getElem?_eq_some_iff.1 hj).1
        obtain ⟨e', h2, h3⟩ := h1.2.2 j hjn
        rw [hj] at h2
        cases h2
        rw [Nat.zero_add] at h3
        refine hall p ?_ j hjn _ h3
        refine List.mem_iff_getElem?.2 ⟨k, List.getElem?_zip_eq_some.2 ⟨?_, hp⟩⟩
        rw [← hn, List.getElem?_map, hk]
        rfl
    · simp [hname]

/-- An instruction is ready exactly when it is well formed and its request can be gathered. -/
theorem ready_iff_gather :
    Ready op f s ↔ WellFormed s.decls (Instr.of op f) ∧ ∃ req, gather op f s = .ok req := by
  constructor
  · intro h
    refine ⟨h.wellFormed, ?_⟩
    obtain ⟨en, hen⟩ := enabledPixels_ok_iff.2 h.predicate
    obtain ⟨o, ho⟩ := readOffsets_ok_iff.2 h.offsets
    obtain ⟨params, hp⟩ := (readParams_ok_iff h.wellFormed.count).2 fun p hp =>
      readParam_ok_iff.2 ⟨h.paramsInside p hp, h.paramsWritten p hp⟩
    refine ⟨_, gather_eq_ok.2 ⟨en, o, params, hen, ho, hp, ?_, ?_, rfl⟩⟩
    · exact (biasOk_iff ((paramType_f_or_hf h.wellFormed).imp id And.right) hp).2 h.bias
    · refine checkWriteback_eq_ok.2 ⟨h.fits, h.apart.imp id fun ha => ?_⟩
      rw [Bool.eq_false_iff]
      intro hm
      obtain ⟨a, h1, h2⟩ := (dstMeetsRead_iff h.wellFormed).1 hm
      exact ha a h1 h2
  · rintro ⟨hwf, req, h⟩
    obtain ⟨en, o, params, hen, ho, hp, hb, hc, -⟩ := gather_eq_ok.1 h
    have hall := (readParams_ok_iff hwf.count).1 ⟨params, hp⟩
    obtain ⟨hfits, hover⟩ := checkWriteback_eq_ok.1 hc
    exact {
      wellFormed := hwf
      predicate := enabledPixels_ok_iff.1 ⟨en, hen⟩
      offsets := readOffsets_ok_iff.1 ⟨o, ho⟩
      paramsInside := fun p hp => (readParam_ok_iff.1 (hall p hp)).1
      paramsWritten := fun p hp => (readParam_ok_iff.1 (hall p hp)).2
      bias := (biasOk_iff ((paramType_f_or_hf hwf).imp id And.right) hp).1 hb
      fits := hfits
      apart := hover.imp id fun hm a h1 h2 => by
        rw [(dstMeetsRead_iff hwf).2 ⟨a, h1, h2⟩] at hm
        cases hm }

/-- The request that is gathered is the one the rules fix. -/
theorem gather_isRequest (hwf : WellFormed s.decls (Instr.of op f)) (h : gather op f s = .ok req) :
    IsRequest op f s req := by
  obtain ⟨en, o, params, hen, ho, hp, -, -, rfl⟩ := gather_eq_ok.1 h
  obtain ⟨a, ha, -, rfl⟩ := readOffsets_eq_ok ho
  obtain ⟨hn, hv⟩ := readParams_eq_ok hp
  have hsrf := hwf.surface
  simp only [State.decls] at hsrf
  exact {
    operation := rfl
    cps := rfl
    nonuni := rfl
    pnm := rfl
    n := rfl
    channels := rfl
    en := enabledPixels_eq_ok.1 hen
    offsets := ⟨a, ha, rfl, rfl, rfl⟩
    surface := ⟨_, List.getElem?_eq_getElem hsrf, by
      simp [surfaceType, List.getElem?_eq_getElem hsrf]⟩
    tp := rfl
    td := rfl
    names := hn
    supplied := fun k p hk => by
      have hlt : k < params.length := by
        have h1 : k < f.params.length := (List.getElem?_eq_some_iff.1 hk).1
        have h2 := hwf.count
        have h3 := congrArg List.length hn
        rw [List.length_map] at h3
        omega
      have h1 := hv k params[k].1 params[k].2 (List.getElem?_eq_getElem hlt)
      simp only [hk, readParam_eq_ok, elemsAt_eq_some] at h1
      refine ⟨params[k].1, params[k].2, List.getElem?_eq_getElem hlt, h1.2.1, fun i hi => ?_⟩
      obtain ⟨e, h2, h3⟩ := h1.2.2 i hi
      rw [h2, ← h3, Nat.zero_add]
    skipped := fun k name es hk hkes => by
      have h1 := hv k name es hkes
      rwa [List.getElem?_eq_none hk] at h1 }

/-- What `SampleFn` returned is a sample of the request. -/
theorem sampled_isSampleOf (hwf : WellFormed s.decls (Instr.of op f)) :
    IsSampleOf f s req (sampled f s req) := by
  have h1 := hwf.surface
  have h2 := hwf.sampler
  simp only [State.decls] at h1 h2
  refine ⟨_, _, surfaceContents f s, samplerContents f s, s.draws, List.getElem?_eq_getElem h1,
    List.getElem?_eq_getElem h2, fun hst => ?_, fun hst => ?_, rfl⟩
  · simp [surfaceContents, List.getElem?_eq_getElem h1, hst]
  · simp [samplerContents, List.getElem?_eq_getElem h2, hst]

/-! ## What is left in `Dst` -/

/-- The destination is declared, and long enough. -/
theorem dst_var (hwf : WellFormed s.decls (Instr.of op f)) (h : gather op f s = .ok req) :
    ∃ v, s.vars[f.dst.id]? = some v ∧ f.dst.off + writebackBytes f s ≤ v.size := by
  obtain ⟨-, -, -, -, -, -, -, hc, -⟩ := gather_eq_ok.1 h
  have hfits := (checkWriteback_eq_ok.1 hc).1
  have hpos := writebackBytes_pos hwf
  obtain ⟨v, hv, hs⟩ := exists_var_of_lt_size (s := s) (id := f.dst.id) (a := f.dst.off) (by omega)
  exact ⟨v, hv, hs ▸ hfits⟩

theorem commit_byteAt_dst {v : Variable} (hv : s.vars[f.dst.id]? = some v) (a : Nat) :
    (commit ret f s req).byteAt f.dst.id a =
      (v.bytes.writeAll f.dst.off (writebackCells ret f s req)).read a := by
  simp [State.byteAt, getElem?_writeVar_self _ _ _ hv]

theorem commit_byteAt_other {id : Nat} (h : id ≠ f.dst.id) (a : Nat) :
    (commit ret f s req).byteAt id a = s.byteAt id a := by
  simp [State.byteAt, getElem?_writeVar_other _ _ _ h]

/-- A byte that is written holds what was written. -/
theorem commit_dstByte_written {v : Variable} (hv : s.vars[f.dst.id]? = some v) {k : Nat} {b : Byte}
    (h : (k, b) ∈ writebackCells ret f s req) :
    (commit ret f s req).dstByte f k = some b := by
  rw [State.dstByte, commit_byteAt_dst hv,
    Memory.read_writeAll_self (writebackCells_distinct _ _ _ _) h]

/-- A byte that is not written is left alone. -/
theorem commit_byteAt_unwritten {id a : Nat}
    (h : id = f.dst.id → ∀ c ∈ writebackCells ret f s req, a ≠ f.dst.off + c.1) :
    (commit ret f s req).byteAt id a = s.byteAt id a := by
  by_cases hid : id = f.dst.id
  · subst hid
    cases hv : s.vars[f.dst.id]? with
    | none =>
      have : (commit ret f s req).vars[f.dst.id]? = none := by
        simp only [commit_vars, writeVar, List.getElem?_eq_none_iff, List.length_modify] at hv ⊢
        exact hv
      rw [State.byteAt, State.byteAt, this, hv]
    | some v =>
      rw [commit_byteAt_dst hv, Memory.read_writeAll_other (h rfl)]
      simp [State.byteAt, hv]
  · exact commit_byteAt_other hid a

/-- A byte that held a value goes on holding one. -/
theorem commit_isSome_byteAt {id a : Nat} (h : (s.byteAt id a).isSome = true) :
    ((commit ret f s req).byteAt id a).isSome = true := by
  by_cases hid : id = f.dst.id
  · subst hid
    cases hv : s.vars[f.dst.id]? with
    | none => simp [State.byteAt, hv, Memory.unlisted] at h
    | some v =>
      rw [commit_byteAt_dst hv]
      exact Memory.isSome_read_writeAll (.inl (by simpa [State.byteAt, hv] using h))
  · rwa [commit_byteAt_other hid]

end Sys2Proof.Machine
end

