-- ==== Sys2Proof/Laws/Footprint.lean ====
section
/-! SUPPORT. What two states share that agree on what an instruction reads (R27). -/

namespace Sys2Proof.Machine.SameInputs

open Sys2Proof

variable {op : SampleOp} {f : Fields} {s t : State}

/-- The variable of `Dst` or of a supplied parameter has the same type and length. -/
theorem operand (h : SameInputs f s t) {p : RawOperand} (hp : p = f.dst ∨ p ∈ f.params) :
    t.vars[p.id]?.map Variable.type = s.vars[p.id]?.map Variable.type ∧
      t.vars[p.id]?.map Variable.size = s.vars[p.id]?.map Variable.size := by
  apply h.vars
  rcases hp with rfl | hp
  · exact .inl rfl
  · exact .inr (.inl ⟨p, hp, rfl⟩)

theorem paramType_eq (h : SameInputs f s t) : paramType f t = paramType f s := by
  unfold paramType
  cases hp : f.params with
  | nil => rfl
  | cons p ps => exact typeOf_congr (h.operand (.inr (by simp [hp]))).1

theorem dstType_eq (h : SameInputs f s t) : dstType f t = dstType f s :=
  typeOf_congr (h.operand (.inl rfl)).1

theorem dstSize_eq (h : SameInputs f s t) : dstSize f t = dstSize f s := by
  unfold dstSize
  rw [h.dstType_eq]

theorem stride_eq (h : SameInputs f s t) : stride f t = stride f s := by
  unfold stride
  rw [h.dstSize_eq, h.cfg]

theorem writebackBytes_eq (h : SameInputs f s t) : writebackBytes f t = writebackBytes f s := by
  unfold writebackBytes
  rw [h.stride_eq, h.cfg]

/-- The same check of R64 fails first. -/
theorem firstIllFormed_eq (h : SameInputs f s t) :
    firstIllFormed t.decls (Instr.of op f) = firstIllFormed s.decls (Instr.of op f) := by
  have hlt {α : Type} (l : List α) (k : Nat) : decide (k < l.length) = (l[k]?).isSome := by
    by_cases hk : k < l.length
    · simp [hk]
    · simp [hk]
  have hsrf := congrArg Option.isSome h.srf
  rw [Option.isSome_map, Option.isSome_map] at hsrf
  unfold firstIllFormed
  rw [checks_congr]
  · exact h.cfg
  · rw [Instr.fields_of]
    exact (hlt t.smp _).trans (h.smp.trans (hlt s.smp _).symm)
  · rw [Instr.fields_of]
    exact (hlt t.srf _).trans (hsrf.trans (hlt s.srf _).symm)
  · rw [Instr.fields_of]
    exact declsTypeOf_congr (h.operand (.inl rfl)).1
  · rw [Instr.fields_of]
    exact fun p hp => declsTypeOf_congr (h.operand (.inr hp)).1

theorem readScalar16_eq (h : SameInputs f s t) :
    readScalar16 t f.aoffimmi = readScalar16 s f.aoffimmi :=
  readScalar16_congr h.cfg (fun id hid => h.vars id (.inr (.inr hid)))
    fun id a ha => h.bytes id a (.inr ha)

theorem readParam_eq (h : SameInputs f s t) {p : RawOperand} (hp : p ∈ f.params) :
    readParam t (elemSize (paramType f s)) f.lanes p =
      readParam s (elemSize (paramType f s)) f.lanes p :=
  readParam_congr (sizeOfVar_congr (h.operand (.inr hp)).2) fun k hk =>
    h.bytes _ _ (.inl ⟨p, hp, rfl, by omega, by unfold paramBytes; omega⟩)

theorem elemAt_eq (h : SameInputs f s t) {p : RawOperand} (hp : p ∈ f.params) {i : Nat}
    (hi : i < f.lanes) :
    t.elemAt p (elemSize (paramType f s)) i = s.elemAt p (elemSize (paramType f s)) i := by
  unfold State.elemAt
  rw [bytesAt_congr]
  intro k hk
  have := element_le (sd := elemSize (paramType f s)) hi
  rw [Nat.add_assoc]
  exact h.bytes _ _ (.inl ⟨p, hp, rfl, by omega, by unfold paramBytes; omega⟩)

theorem checkWriteback_eq (h : SameInputs f s t) : checkWriteback f t = checkWriteback f s := by
  have hid : ∀ id ∈ f.aoffimmi.names,
      (id == f.dst.id && rangesMeet f.dst.off (writebackBytes f s) 0 (t.sizeOfVar id)) =
        (id == f.dst.id && rangesMeet f.dst.off (writebackBytes f s) 0 (s.sizeOfVar id)) :=
    fun id hid => by rw [sizeOfVar_congr (h.vars id (.inr (.inr hid))).2]
  have hmeet : dstMeetsRead f t = dstMeetsRead f s := by
    unfold dstMeetsRead
    rw [h.paramType_eq, h.writebackBytes_eq]
    congr 1
    rw [Bool.eq_iff_iff]
    simp only [List.any_eq_true]
    exact exists_congr fun id => and_congr_right fun hm => by rw [hid id hm]
  unfold checkWriteback
  rw [sizeOfVar_congr (h.vars f.dst.id (.inl rfl)).2, h.writebackBytes_eq, hmeet, h.cfg]

end Sys2Proof.Machine.SameInputs
end

