-- ==== Sys2Proof/Laws/Masks.lean ====
section
/-! SUPPORT. The bits of the masks (R20, R21, R75) and of the pixel null mask (R86). -/

namespace Sys2Proof.Machine

open Sys2Proof

theorem allLanes_getLsbD {n : Nat} (hn : n ≤ 16) (i : Nat) : (allLanes n).getLsbD i = decide (i < n) := by
  unfold allLanes
  rw [BitVec.getLsbD_ofNat, Nat.testBit_two_pow_sub_one]
  by_cases h : i < n
  · simp [h]
    omega
  · simp [h]

theorem maskOfBits_getLsbD {bs : List Bool} (h : bs.length ≤ 16) (i : Nat) :
    (maskOfBits bs).getLsbD i = (bs[i]?).getD false := by
  induction bs generalizing i with
  | nil => simp [maskOfBits]
  | cons b bs ih =>
    simp only [List.length_cons] at h
    rw [maskOfBits, BitVec.getLsbD_or, BitVec.getLsbD_shiftLeft, BitVec.getLsbD_setWidth,
      ih (by omega)]
    cases i with
    | zero => simp
    | succ i =>
      by_cases hi : i + 1 < 16
      · simp [hi]
      · simp [hi]
        rw [List.getElem?_eq_none (by omega)]
        rfl

/-- Under either reading the execution mask enables no lane past the last. -/
theorem laneEnable_past_lanes {cfg : Config} {em : BitVec 32} {ctrl : BitVec 4} {n i : Nat} (hn : n ≤ 16)
    (hi : n ≤ i) : (laneEnable cfg em ctrl n).getLsbD i = false := by
  have ha := allLanes_getLsbD hn i
  rw [decide_eq_false (by omega)] at ha
  unfold laneEnable maskFromEM
  split
  · simp [ha]
  · split
    · exact ha
    · simp [ha]

theorem predBits_eq_some {prd : List (List (Option Bool))} {id n lane : Nat} {b : Nat → Bool}
    (h : ∀ i < n, predBit prd id (lane + i) = some (b i)) :
    predBits prd id lane n = some ((List.range n).map b) := by
  induction n generalizing lane b with
  | zero => rfl
  | succ n ih =>
    have h0 := h 0 (by omega)
    rw [Nat.add_zero] at h0
    have ih' := ih (lane := lane + 1) (b := fun i => b (i + 1)) fun i hi => by
      rw [show lane + 1 + i = lane + (i + 1) by omega]
      exact h (i + 1) (by omega)
    rw [predBits, h0, ih', List.range_succ_eq_map]
    simp [Function.comp_def]

theorem predBits_eq_none {prd : List (List (Option Bool))} {id n lane i : Nat} (hi : i < n)
    (h : predBit prd id (lane + i) = none) : predBits prd id lane n = none := by
  induction n generalizing lane i with
  | zero => omega
  | succ n ih =>
    rw [predBits]
    cases i with
    | zero =>
      rw [Nat.add_zero] at h
      rw [h]
    | succ i =>
      rw [ih (i := i) (by omega) (by rwa [show lane + 1 + i = lane + (i + 1) by omega])]
      cases predBit prd id lane <;> rfl

theorem setBit_getLsbD (d : BitVec 32) {i : Nat} (hi : i < 32) (b : Bool) (j : Nat) :
    (setBit d i b).getLsbD j = if j = i then b else d.getLsbD j := by
  unfold setBit
  by_cases h : j = i
  · subst h
    cases b <;> simp [hi]
  · cases b
    · simp only [h, if_false, Bool.false_eq_true, BitVec.getLsbD_and, BitVec.getLsbD_not,
        BitVec.getLsbD_twoPow]
      have hji : ¬ i = j := fun e => h e.symm
      by_cases hj : j < 32
      · simp [hj, hji]
      · simp [hj, BitVec.getLsbD_of_ge d j (by omega)]
    · have hji : ¬ i = j := fun e => h e.symm
      simp [BitVec.getLsbD_twoPow, h, hji]

/-- The null mask has the bit of an enabled pixel as it was sampled. -/
theorem nullDWord_getLsbD {n : Nat} (hn : n ≤ 32) {en : BitVec 16} (null : Nat → Bool) (d : BitVec 32)
    {i : Nat} (hi : i < n) (hen : en.getLsbD i = true) :
    (nullDWord n en null d).getLsbD i = null i := by
  unfold nullDWord
  induction n with
  | zero => omega
  | succ n ih =>
    rw [List.range_succ, List.foldl_append]
    simp only [List.foldl_cons, List.foldl_nil]
    by_cases h : i = n
    · subst h
      rw [if_pos hen, setBit_getLsbD _ (by omega), if_pos rfl]
    · split
      · rw [setBit_getLsbD _ (by omega), if_neg h]
        exact ih (by omega) (by omega)
      · exact ih (by omega) (by omega)

end Sys2Proof.Machine
end

