-- ==== Sys2Proof/Laws/PerInstr.lean ====
section
/-! SUPPORT. Statements about every instruction as syntax, one lemma per constructor. -/

/-- The `match` of the row of `spec/opcode_table.json`, under the mask `0x1fff` (R67). -/
def Sys2Proof.Laws.TableKey.tableMatch : Sys2Proof.Instr → Nat
  | .sample _ => 0x006d
  | .sampleB _ => 0x016d
  | .sampleL _ => 0x026d
  | .sampleC _ => 0x036d
  | .sampleD _ => 0x046d
  | .sampleBC _ => 0x056d
  | .sampleLC _ => 0x066d
  | .lod _ => 0x096d
  | .sampleDC _ => 0x146d
  | .sampleLz _ => 0x186d
  | .sampleCLz _ => 0x196d

/-- The first two bytes of an encoded instruction select its row of the opcode table (R67). -/
def Sys2Proof.Laws.TableKey.Statement (i : Sys2Proof.Instr) : Prop :=
  ∀ c code, Sys2Proof.encode c i = some code → ∃ b0 b1 rest, code = b0 :: b1 :: rest ∧
    (b0.toNat + 256 * b1.toNat) &&& 0x1fff = Sys2Proof.Laws.TableKey.tableMatch i

namespace Sys2Proof.Laws.TableKey

open Sys2Proof

theorem of_opByte (i : Instr)
    (h : ∀ f : Fields, (0x6d + 256 * (f.opByte i.op).toNat) &&& 0x1fff = tableMatch i) :
    Statement i := by
  intro c code hc
  unfold encode at hc
  simp only at hc
  split at hc
  · cases hc
    exact ⟨_, _, _, rfl, h i.fields⟩
  · cases hc

theorem opByte_key (op : SampleOp) (f : Fields) :
    (0x6d + 256 * (f.opByte op).toNat) &&& 0x1fff = 0x6d + 256 * op.bits.toNat := by
  unfold Fields.opByte
  cases f.nonuni <;> cases f.cps <;> cases f.pnm <;> cases op <;> decide

theorem sample (f : Fields) : Statement (.sample f) := of_opByte _ (opByte_key _)
theorem sampleB (f : Fields) : Statement (.sampleB f) := of_opByte _ (opByte_key _)
theorem sampleL (f : Fields) : Statement (.sampleL f) := of_opByte _ (opByte_key _)
theorem sampleC (f : Fields) : Statement (.sampleC f) := of_opByte _ (opByte_key _)
theorem sampleD (f : Fields) : Statement (.sampleD f) := of_opByte _ (opByte_key _)
theorem sampleBC (f : Fields) : Statement (.sampleBC f) := of_opByte _ (opByte_key _)
theorem sampleLC (f : Fields) : Statement (.sampleLC f) := of_opByte _ (opByte_key _)
theorem lod (f : Fields) : Statement (.lod f) := of_opByte _ (opByte_key _)
theorem sampleDC (f : Fields) : Statement (.sampleDC f) := of_opByte _ (opByte_key _)
theorem sampleLz (f : Fields) : Statement (.sampleLz f) := of_opByte _ (opByte_key _)
theorem sampleCLz (f : Fields) : Statement (.sampleCLz f) := of_opByte _ (opByte_key _)

end Sys2Proof.Laws.TableKey
end

