-- ==== Sys2Proof/Laws/Step.lean ====
section
/-! SUPPORT. What a step that gives a next state did, and where a fault comes from, said once. -/

namespace Sys2Proof.Machine

open Sys2Proof

variable {op : SampleOp} {f : Fields} {s t : State}

/-- A meaning that gives a next state gathered a request and committed its results. -/
theorem exec_eq_next (h : exec (Instr.of op f) s = .next t) :
    ∃ ret req, WellFormed s.decls (Instr.of op f) ∧ gather op f s = .ok req ∧ t = commit ret f s req := by
  rw [exec_of, sampleStep_eq_next] at h
  obtain ⟨hw, req, hr, rfl⟩ := h
  exact ⟨_, req, hw, hr, rfl⟩

theorem exec_eq_fault {reason : Fault} :
    exec (Instr.of op f) s = .fault reason ↔
      WellFormed s.decls (Instr.of op f) ∧ gather op f s = .error reason := by
  rw [exec_of, sampleStep_eq_fault]

/-- A step that gives a next state ran the instruction at `pc`, with no mark set. -/
theorem step_eq_next (h : step s = .next t) :
    s.unmarked ∧ s.pc < s.program.length ∧ ∃ op f, exec (Instr.of op f) s = .next t := by
  unfold step at h
  split at h
  · cases h
  · cases h
  · rename_i h1 h2
    split at h
    · cases h
    · rename_i i hf
      refine ⟨⟨h1, h2⟩, ?_, i.op, i.fields, by rwa [Instr.of_op_fields]⟩
      unfold fetch at hf
      split at hf
      · cases hf
      · rename_i hh
        exact (List.getElem?_eq_some_iff.1 hh).1

/-- A run of several steps that gives a next state begins with a step that does. -/
theorem run_succ_eq_next {M : Host.Core} {k : Nat} {s t : M.State} (h : M.run (k + 1) s = .next t) :
    ∃ s', M.step s = .next s' ∧ M.run k s' = .next t := by
  rw [Host.Core.run] at h
  cases hs : M.step s with
  | next s' => exact ⟨s', rfl, by rwa [hs] at h⟩
  | fault r =>
    rw [hs] at h
    cases h
  | refused r =>
    rw [hs] at h
    cases h

/-- No meaning refuses as if there were no instruction. -/
theorem exec_ne_runOver (i : Instr) (s : State) : exec i s ≠ .refused .runOver := by
  rw [← Instr.of_op_fields i, exec_of]
  intro h
  obtain ⟨r, -, h⟩ := sampleStep_eq_refused.1 h
  cases h

/-- Where the reads before the parameters succeed, a failing parameter read is the fault. -/
theorem gather_eq_params_error {reason : Fault}
    (hp : (predEval s.cfg s.prd s.em f.pred f.emctrl f.lanes).isSome = true)
    (ho : OffsetsReady s f.aoffimmi)
    (h : readParams s (elemSize (paramType f s)) f.lanes (paramNames op) f.params = .error reason) :
    gather op f s = .error reason := by
  obtain ⟨en, hen⟩ := enabledPixels_ok_iff.2 hp
  obtain ⟨o, ho⟩ := readOffsets_ok_iff.2 ho
  simp [gather, hen, ho, h]

/-- Where everything that is read is admitted, a failing writeback check is the fault. -/
theorem gather_eq_writeback_error {reason : Fault} (h : InputsReady op f s)
    (hc : checkWriteback f s = .error reason) : gather op f s = .error reason := by
  obtain ⟨en, hen⟩ := enabledPixels_ok_iff.2 h.predicate
  obtain ⟨o, ho⟩ := readOffsets_ok_iff.2 h.offsets
  obtain ⟨params, hps⟩ := (readParams_ok_iff h.wellFormed.count).2 fun p hp =>
    readParam_ok_iff.2 ⟨h.paramsInside p hp, h.paramsWritten p hp⟩
  have hb := (biasOk_iff ((paramType_f_or_hf h.wellFormed).imp id And.right) hps).2 h.bias
  simp [gather, hen, ho, hps, hb, hc]

/-- The first parameter that cannot be read gives the fault of reading the parameters. -/
theorem readParams_first_error {size n : Nat} {names : List ParamName} {before after : List RawOperand}
    {p : RawOperand} {reason : Fault} (hl : (before ++ p :: after).length ≤ names.length)
    (hb : ∀ q ∈ before, ∃ es, readParam s size n q = .ok es)
    (hp : readParam s size n p = .error reason) :
    readParams s size n names (before ++ p :: after) = .error reason := by
  induction before generalizing names with
  | nil =>
    cases names with
    | nil => simp at hl
    | cons a names => simp [readParams, hp]
  | cons q before ih =>
    cases names with
    | nil => simp at hl
    | cons a names =>
      obtain ⟨es, hes⟩ := hb q List.mem_cons_self
      have := ih (names := names) (by simpa using hl) fun q hq => hb q (List.mem_cons_of_mem _ hq)
      simp [readParams, hes, this]

/-- What a failing parameter read says: which parameter, and why. -/
theorem readParams_eq_error {size n : Nat} {names : List ParamName} {ps : List RawOperand} {reason : Fault}
    (h : readParams s size n names ps = .error reason) :
    ∃ p ∈ ps, readParam s size n p = .error reason := by
  induction names generalizing ps with
  | nil => cases h
  | cons a names ih =>
    cases ps with
    | nil =>
      simp only [readParams] at h
      split at h
      · rename_i e he
        cases h
        obtain ⟨p, hp, -⟩ := ih he
        cases hp
      · cases h
    | cons p ps =>
      simp only [readParams] at h
      split at h
      · rename_i e he
        cases h
        exact ⟨p, List.mem_cons_self, he⟩
      · split at h
        · rename_i e he
          cases h
          obtain ⟨q, hq, hq'⟩ := ih he
          exact ⟨q, List.mem_cons_of_mem _ hq, hq'⟩
        · cases h

end Sys2Proof.Machine
end

