-- ==== Sys2Proof/Tests/Slice0.lean ====
section
/-! SUPPORT. The model's own tests, expected results from `spec/95_test_vectors.md`, the examples of
`spec/41_3d_sample_ops.md` and the rules named; and, for each obligation with hypotheses, a state and
operands that meet them. -/

namespace Sys2Proof.Tests

-- one theorem at a time: each thread asks for a large stack
set_option Elab.async false

open Sys2Proof Sys2Proof.Machine

/-! ## A small machine -/

/-- Codes for tests: an immediate is `0` and its two bytes, the scalar variable `k` is `1 k`, the raw
operand `V<k>.0` is the byte `k`, and `V3.4` is the byte 200. -/
def codecs : Codecs where
  scalars :=
    [([0, 0x00, 0x00], .imm 0), ([0, 0x10, 0x00], .imm 0x0010), ([0, 0x18, 0x0f], .imm 0x0f18),
      ([1, 3], .var 3)]
  raws := ([200], ⟨3, 4⟩) :: (List.range 48).map fun k => ([BitVec.ofNat 8 k], ⟨k, 0⟩)

/-- `GRF_BYTES` 32, ICLLP+, the recommended readings: the set-up of the spec's programs. -/
def config : Config where
  platformGeIcllp := true
  grfDWordsLess1 := 7
  allowDstParamOverlap := false
  laneReading := .recommended
  predReading := .recommended
  scalarReading := .recommended
  codecs := codecs

/-- The bytes `a` to `b - 1`, each 0. -/
def zeros (a b : Nat) : Memory :=
  (List.range (b - a)).map fun k => (a + k, 0)

/-- Variables: 0 and 1, empty destinations of type F, 128 and 96 bytes; 2, a parameter of type F that is
written; 3 and 4, values of `Aoffimmi`, the second with a reserved bit set; 5, a parameter with
element 12 not written; 6, a bias of 17.0 in lane 2; 7, an empty destination of type HF; 8, a parameter
of type HF; 9, a type no operand may have; 10, a destination too small; 11, an `Aoffimmi` not written;
12, a destination that is written. -/
def vars : List Variable :=
  [⟨.f, 128, []⟩, ⟨.f, 96, []⟩, ⟨.f, 64, zeros 0 64⟩, ⟨.uw, 2, [(0, 0x18), (1, 0x0f)]⟩,
    ⟨.uw, 2, [(0, 0x00), (1, 0x10)]⟩, ⟨.f, 64, zeros 0 48 ++ zeros 52 64⟩,
    ⟨.f, 32, zeros 0 8 ++ [(8, 0), (9, 0), (10, 0x88), (11, 0x41)] ++ zeros 12 32⟩,
    ⟨.hf, 96, []⟩, ⟨.hf, 32, zeros 0 32⟩, ⟨.other, 128, []⟩, ⟨.f, 64, []⟩, ⟨.uw, 2, [(0, 0)]⟩,
    ⟨.f, 128, zeros 0 128⟩]

/-- `P1` has lanes 0 to 7 set and lanes 8 to 15 clear; lane 3 of `P2` holds no value. -/
def predicates : List (List (Option Bool)) :=
  [[], List.replicate 8 (some true) ++ List.replicate 8 (some false),
    [some true, some true, some true, none, some true, some true, some true, some true]]

/-- A state with two 2D surfaces and two samplers that nobody writes. -/
def demo : State where
  cfg := config
  program := []
  pc := 0
  vars := vars
  smp := [⟨[], true⟩, ⟨[1], true⟩]
  srf := [⟨.dim2, [2], true⟩, ⟨.dim2, [3], true⟩]
  prd := predicates
  em := 0x0000ff0f
  draws := 0
  faulted := none
  refused := none

/-- `(M1, 8)`, no predicate, all four channels, `V0.0 V2.0 V2.0`. -/
def base : Fields where
  pnm := false
  cps := false
  nonuni := false
  execSize := 0b011
  execBit3 := false
  emctrl := 0
  pred := 0
  channels := 0b1111
  channelsHigh := 0
  aoffimmi := .imm 0
  sampler := 0
  surface := 1
  dst := ⟨0, 0⟩
  params := [⟨2, 0⟩, ⟨2, 0⟩]

/-- Program 3 of the spec: predicated, 16 lanes, R only, with the null mask; the destination fits
exactly. -/
def prog3 : Fields :=
  { base with
    pnm := true, execSize := 0b100, pred := 1, channels := 0b0001, dst := ⟨1, 0⟩
    params := [⟨2, 0⟩, ⟨2, 0⟩, ⟨2, 0⟩] }

/-- G and A into a destination of type HF. -/
def halves : Fields :=
  { base with channels := 0b1010, dst := ⟨7, 0⟩ }

/-- The state an outcome answers, if it is a next state. -/
def nextOf : StepOutcome → Option State
  | .next t => some t
  | .fault _ => none
  | .refused _ => none

/-- The fault an outcome answers, if it is one. -/
def faultOf : StepOutcome → Option Fault
  | .fault reason => some reason
  | .next _ => none
  | .refused _ => none

/-- The refusal an outcome answers, if it is one. -/
def refusalOf : StepOutcome → Option Refusal
  | .refused why => some why
  | .next _ => none
  | .fault _ => none

theorem eq_fault {o : StepOutcome} {reason : Fault} (h : faultOf o = some reason) :
    o = .fault reason := by
  cases o <;> cases h
  rfl

theorem eq_refused {o : StepOutcome} {why : Refusal} (h : refusalOf o = some why) :
    o = .refused why := by
  cases o <;> cases h
  rfl

theorem exists_next {o : StepOutcome} (h : (nextOf o).isSome = true) : ∃ t, o = .next t := by
  cases o with
  | next t => exact ⟨t, rfl⟩
  | fault r => cases h
  | refused r => cases h

/-- The offsets of a variable that hold a value after an instruction, among the first `n`. -/
def written (i : Instr) (s : State) (id n : Nat) : Option (List Nat) :=
  (nextOf (exec i s)).map fun t => (List.range n).filter fun a => (t.byteAt id a).isSome

/-- The first failing check of an operation with these fields. -/
def refusal (op : SampleOp) (f : Fields) : Option IllFormed :=
  firstIllFormed demo.decls (Instr.of op f)

/-! ## Each check of R64 refuses an ill-formed term -/

theorem test_wellformed_base : ∀ op ∈ SampleOp.all, refusal op base = none := by decide

theorem test_cps_not_available : ∀ op ∈ [SampleOp.sampleL, .sampleD, .sampleLC, .sampleDC, .sampleLz, .sampleCLz],
    refusal op { base with cps := true } = some .cpsNotAvailable := by decide

theorem test_cps_available : ∀ op ∈ [SampleOp.sample, .sampleB, .sampleBC, .sampleC, .lod],
    refusal op { base with cps := true } = none := by decide

theorem test_cps_before_icllp :
    firstIllFormed { demo.decls with cfg := { config with platformGeIcllp := false } }
      (.sample { base with cps := true }) = some .cpsNotAvailable := by decide

theorem test_bad_exec_size : ∀ x ∈ ([0b000, 0b001, 0b010, 0b101, 0b110, 0b111] : List (BitVec 3)),
    refusal .sample { base with execSize := x } = some .badExecSize := by decide

theorem test_exec_size_bit3 : refusal .sample { base with execBit3 := true } = some .execSizeBit3 := by decide

theorem test_bad_exec_mask_offset :
    refusal .sample { base with emctrl := 6, execSize := 0b100 } = some .badExecMaskOffset ∧
    refusal .sample { base with emctrl := 7 } = some .badExecMaskOffset ∧
    refusal .sample { base with emctrl := 15 } = some .badExecMaskOffset ∧
    refusal .sample { base with emctrl := 4, execSize := 0b100 } = none := by decide

theorem test_no_channel_enabled : refusal .lod { base with channels := 0 } = some .noChannelEnabled := by decide

theorem test_channels_high_bits :
    refusal .sample { base with channelsHigh := 1 } = some .channelsHighBits := by decide

theorem test_aoffimmi_reserved :
    refusal .sample { base with aoffimmi := .imm 0x1000 } = some .aoffimmiReserved ∧
    refusal .sample { base with aoffimmi := .imm 0x0fff } = none := by decide

theorem test_bad_sampler_index : refusal .sample { base with sampler := 2 } = some .badSamplerIndex := by decide

theorem test_bad_surface_index : refusal .sample { base with surface := 2 } = some .badSurfaceIndex := by decide

theorem test_bad_dst_type :
    refusal .sample { base with dst := ⟨9, 0⟩ } = some .badDstType ∧
    refusal .sample { base with dst := ⟨13, 0⟩ } = some .badDstType := by decide

theorem test_bad_num_params :
    refusal .sample { base with params := [] } = some .badNumParams ∧
    refusal .sampleDC { base with params := List.replicate 16 ⟨2, 0⟩ } = some .badNumParams := by decide

theorem test_too_many_params : ∀ op ∈ SampleOp.all,
    refusal op { base with params := List.replicate (op.count + 1) ⟨2, 0⟩ } = some .tooManyParams ∧
    refusal op { base with params := List.replicate op.count ⟨2, 0⟩ } = none := by decide

theorem test_bad_param_type :
    refusal .sample { base with params := [⟨2, 0⟩, ⟨8, 0⟩] } = some .badParamType ∧
    refusal .sample { base with params := [⟨8, 0⟩, ⟨8, 0⟩] } = none ∧
    firstIllFormed { demo.decls with cfg := { config with platformGeIcllp := false } }
      (.sample { base with params := [⟨8, 0⟩, ⟨8, 0⟩] }) = some .badParamType := by decide

theorem test_misaligned_raw_operand :
    refusal .sample { base with params := [⟨2, 0⟩, ⟨2, 4⟩] } = some .misalignedRawOperand ∧
    refusal .sample { base with dst := ⟨0, 32⟩ } = none := by decide

theorem test_not_this_opcode : decode codecs [0x6c, 0x00] = .error .notThisOpcode := by rfl

theorem test_unlisted_op : ∀ b ∈ ([0x07, 0x08, 0x0a, 0x1f, 0xff] : List Byte),
    (decode codecs [0x6d, b] matches .error .unlistedOp) = true := by decide

theorem test_truncated : decode codecs [0x6d, 0x00, 0x03, 0, 0, 0x0f, 0, 0] = .error .truncated := by rfl

theorem test_operand_codec : decode codecs [0x6d, 0x00, 0x03, 0, 0, 0x0f, 7] = .error .operandCodec := by rfl

/-! ## Decoding: the examples of R94 to R104, byte by byte -/

/-- The instruction that bytes spell. -/
def read (bs : List Byte) : Option Instr :=
  match decode codecs bs with
  | .ok (i, []) => some i
  | _ => none

/-- The fields of the examples: `pp pp` is `00 00` and `<aoff>` the immediate 0. -/
def fieldsOf (dst : Nat) (params : List Nat) : Fields :=
  { base with dst := ⟨dst, 0⟩, params := params.map fun k => ⟨k, 0⟩ }

theorem test_decode_sample :
    read [0x6d, 0x00, 0x03, 0, 0, 0x0f, 0, 0, 0, 0x00, 0x01, 10, 0x02, 20, 21] =
      some (.sample (fieldsOf 10 [20, 21])) := by decide +kernel

theorem test_decode_sample_b :
    read [0x6d, 0x01, 0x04, 0, 0, 0x01, 0, 0, 0, 0x02, 0x03, 10, 0x03, 30, 20, 21] =
      some (.sampleB { fieldsOf 10 [30, 20, 21] with
        execSize := 0b100, channels := 0b0001, sampler := 2, surface := 3 }) := by decide +kernel

theorem test_decode_sample_l :
    read [0x6d, 0x02, 0x03, 0, 0, 0x0f, 0, 0, 0, 0x00, 0x01, 10, 0x03, 31, 20, 21] =
      some (.sampleL (fieldsOf 10 [31, 20, 21])) := by decide +kernel

theorem test_decode_sample_c :
    read [0x6d, 0x03, 0x03, 0, 0, 0x01, 0, 0, 0, 0x00, 0x01, 10, 0x03, 32, 20, 21] =
      some (.sampleC { fieldsOf 10 [32, 20, 21] with channels := 0b0001 }) := by decide +kernel

theorem test_decode_sample_d :
    read [0x6d, 0x04, 0x03, 0, 0, 0x0f, 0, 0, 0, 0x00, 0x01, 10, 0x06, 20, 40, 41, 21, 42, 43] =
      some (.sampleD (fieldsOf 10 [20, 40, 41, 21, 42, 43])) := by decide +kernel

theorem test_decode_sample_b_c :
    read [0x6d, 0x05, 0x03, 0, 0, 0x01, 0, 0, 0, 0x00, 0x01, 10, 0x04, 32, 30, 20, 21] =
      some (.sampleBC { fieldsOf 10 [32, 30, 20, 21] with channels := 0b0001 }) := by decide +kernel

theorem test_decode_sample_l_c :
    read [0x6d, 0x06, 0x03, 0, 0, 0x01, 0, 0, 0, 0x00, 0x01, 10, 0x04, 32, 31, 20, 21] =
      some (.sampleLC { fieldsOf 10 [32, 31, 20, 21] with channels := 0b0001 }) := by decide +kernel

theorem test_decode_lod :
    read [0x6d, 0x09, 0x03, 0, 0, 0x03, 0, 0, 0, 0x00, 0x01, 10, 0x02, 20, 21] =
      some (.lod { fieldsOf 10 [20, 21] with channels := 0b0011 }) := by decide +kernel

theorem test_decode_sample_d_c :
    read [0x6d, 0x14, 0x03, 0, 0, 0x01, 0, 0, 0, 0x00, 0x01, 10, 0x04, 32, 20, 40, 41] =
      some (.sampleDC { fieldsOf 10 [32, 20, 40, 41] with channels := 0b0001 }) := by decide +kernel

theorem test_decode_sample_lz :
    read [0x6d, 0x18, 0x84, 0, 0, 0x0f, 0, 0, 0, 0x00, 0x01, 10, 0x02, 20, 21] =
      some (.sampleLz { fieldsOf 10 [20, 21] with execSize := 0b100, emctrl := 8 }) := by
  decide +kernel

theorem test_decode_sample_c_lz :
    read [0x6d, 0x39, 0x03, 0, 0, 0x01, 0, 0, 0, 0x00, 0x01, 10, 0x03, 32, 20, 21] =
      some (.sampleCLz { fieldsOf 10 [32, 20, 21] with pnm := true, channels := 0b0001 }) := by
  decide +kernel

/-- Program 3: `Op` 0x23, `Exec_size` 0x04, `Pred` bytes `01 00`; here with every other field bit that
the examples leave clear. -/
theorem test_decode_every_field :
    read [0x6d, 0xe9, 0xfb, 0x01, 0x80, 0xa5, 1, 3, 0xfe, 0xff, 10, 0x01, 200] =
      some (.lod { pnm := true, cps := true, nonuni := true, execSize := 0b011, execBit3 := true,
                   emctrl := 0b1111, pred := 0x8001, channels := 0b0101, channelsHigh := 0b1010,
                   aoffimmi := .var 3, sampler := 0xfe, surface := 0xff, dst := ⟨10, 0⟩,
                   params := [⟨3, 4⟩] }) := by decide +kernel

/-! ## Enabled pixels, offsets and layout: tables 2.3, 2.4, 2.8 and 2.9 of the test vectors -/

theorem test_enabled_pixels :
    laneEnable config 0x0000ff0f 0 8 = 0x0f ∧ laneEnable config 0x0000ff0f 1 8 = 0xf0 ∧
    laneEnable config 0x0000ff0f 2 8 = 0xff ∧ laneEnable config 0x0000ff0f 8 8 = 0xff ∧
    predEval config predicates 0 1 0 16 = some 0x00ff ∧
    predEval config predicates 0 0x8001 0 16 = some 0xff00 ∧
    predEval config predicates 0 2 0 8 = none := by decide +kernel

theorem test_offsets :
    offsetsOf 0x0123 = ⟨1, 2, 3⟩ ∧ offsetsOf 0x0f18 = ⟨-1, 1, -8⟩ ∧ offsetsOf 0x0777 = ⟨7, 7, 7⟩ ∧
    offsetsOf 0x00f0 = ⟨0, -1, 0⟩ := by decide

theorem test_writeback_bytes :
    writebackBytes base demo = 128 ∧ writebackBytes prog3 demo = 96 ∧
    writebackBytes { base with channels := 0b0101, dst := ⟨7, 0⟩ } demo = 64 ∧
    writebackBytes { base with execSize := 0b100, pnm := true, channels := 0b1000, dst := ⟨7, 0⟩ } demo
      = 64 := by decide

/-- Table 2.7. -/
theorem test_bias_range :
    ([0x41800000, 0xc1800000, 0x00000000, 0x80000000] : List Elem).all (biasInRange .f) = true ∧
    ([0x41800001, 0xc1800001, 0x7fc00000, 0x7f800000] : List Elem).any (biasInRange .f) = false ∧
    ([0x4c00, 0xcc00] : List Elem).all (biasInRange .hf) = true ∧
    ([0x4c01, 0x7e00] : List Elem).any (biasInRange .hf) = false := by decide +kernel

/-! ## One step of each operation -/

/-- Program 1: every byte of `Dst` is written, and byte 2 of element 5 of G is that of the sampled
data. -/
theorem test_sample_returns_data :
    (nextOf (execSample { base with emctrl := 8 } demo)).map (fun t => t.byteAt 0 (32 + 4 * 5 + 2)) =
      some (some (((Config.sampleFn
        { op := .sample, cps := false, nonuni := false, pnm := false, n := 8, en := 0x00ff, channels := 0b1111,
          offU := 0, offV := 0, offR := 0, surfaceType := .dim2, tp := .f, td := .f,
          params := [(.u, List.replicate 8 0), (.v, List.replicate 8 0), (.r, List.replicate 8 0),
            (.ai, List.replicate 8 0)] } [3] [] 0).data .G 5).extractLsb' 16 8)) := by
  rfl

/-- What nobody promised to leave alone is drawn (D27). -/
theorem test_unstable_contents_are_drawn :
    samplerContents base { demo with smp := [⟨[4], false⟩] } = Config.drawSampler 0 ∧
    surfaceContents { base with surface := 0 } { demo with srf := [⟨.dim2, [4], false⟩] } =
      Config.drawSurface 0 := ⟨rfl, rfl⟩

/-- `EM` is `0x0000ff0f`: the elements of lanes 4 to 7 stay as they were. -/
theorem test_sample_disabled_lanes :
    written (.sample base) demo 0 128 =
      some ((List.range 128).filter fun a => a % 32 < 16) := by decide +kernel

/-- The last program of the spec: a bias of 17.0 in lane 2. -/
theorem test_sample_b_bias_out_of_range :
    faultOf (exec (.sampleB { base with params := [⟨6, 0⟩, ⟨2, 0⟩] }) demo) = some .biasOutOfRange := by
  decide +kernel

/-- `lod` has no range. -/
theorem test_sample_l_no_range :
    (nextOf (exec (.sampleL { base with params := [⟨6, 0⟩, ⟨2, 0⟩] }) demo)).map State.pc = some 1 := by
  decide +kernel

/-- Program 3: elements of pixels 0 to 7, then the register of the null mask. -/
theorem test_sample_c_program_3 :
    written (.sampleC prog3) { demo with em := 0x0000ffff } 1 96 =
      some (List.range 32 ++ (List.range 32).map fun k => 64 + k) := by decide +kernel

/-- Program 3b: element 12 of a parameter is not written, and pixel 12 is disabled. -/
theorem test_sample_c_program_3b :
    faultOf (exec (.sampleC { prog3 with params := [⟨2, 0⟩, ⟨2, 0⟩, ⟨5, 0⟩] }) demo) = some .unwrittenRead := by
  decide +kernel

/-- `NumParams = 4` supplies `u`, `dudx`, `dudy`, `v`; the other six are 0. -/
theorem test_sample_d_skipped :
    ((gather .sampleD { base with params := List.replicate 4 ⟨6, 0⟩ } demo).toOption.map fun req =>
      req.params.map fun p => (p.1, p.2[2]?)) =
      some [(.u, some 0x41880000), (.dudx, some 0x41880000), (.dudy, some 0x41880000),
        (.v, some 0x41880000), (.dvdx, some 0), (.dvdy, some 0), (.r, some 0), (.drdx, some 0),
        (.drdy, some 0), (.ai, some 0)] := by decide +kernel

/-- `ref` comes before `bias`: a lone parameter is no bias. -/
theorem test_sample_b_c_lone_ref :
    (nextOf (exec (.sampleBC { base with params := [⟨6, 0⟩] }) demo)).map State.pc = some 1 ∧
    faultOf (exec (.sampleBC { base with params := [⟨2, 0⟩, ⟨6, 0⟩] }) demo) = some .biasOutOfRange := by
  decide +kernel

/-- Offsets read from a variable that holds `0x0f18`. -/
theorem test_sample_l_c_offsets :
    ((gather .sampleLC { base with aoffimmi := .var 3 } demo).toOption.map fun req =>
      (req.offU, req.offV, req.offR)) = some (-1, 1, -8) ∧
    faultOf (exec (.sampleLC { base with aoffimmi := .var 4 }) demo) = some .aoffimmiReservedBits := by
  decide +kernel

/-- The B element of `LOD` is a draw. -/
theorem test_lod_b_is_drawn :
    (nextOf (execLod base demo)).map (fun t => t.byteAt 0 (64 + 4)) =
      some (some ((Config.drawElem 0 .B 1).extractLsb' 0 8)) := by rfl

/-- Eleven parameters, the longest list. -/
theorem test_sample_d_c_all_parameters :
    (nextOf (exec (.sampleDC { base with params := List.replicate 11 ⟨2, 0⟩ }) demo)).map State.pc = some 1 := by
  decide +kernel

/-- HF data of eight lanes fill half a register; the other half is drawn. -/
theorem test_sample_lz_remainder :
    written (.sampleLz { halves with emctrl := 8 }) demo 7 96 = some (List.range 64) := by decide +kernel

/-- Program 3c: no pixel enabled; only the null mask register is drawn. -/
theorem test_sample_c_lz_no_pixel :
    written (.sampleCLz { prog3 with pred := 0x8001, emctrl := 0 }) { demo with em := 0x000000ff } 1 96 =
      some ((List.range 32).map fun k => 64 + k) := by decide +kernel

/-! ## Reset and placed words -/

theorem test_table_words_decode :
    (decodeTableWord 16 0x006d).map Instr.op = some .sample ∧
    (decodeTableWord 16 0x096d).map Instr.op = some .lod ∧
    (decodeTableWord 16 0x196d).map Instr.op = some .sampleCLz ∧
    decodeTableWord 16 0x076d = none ∧ decodeTableWord 16 0x006c = none := by decide +kernel

/-- A table word has no operands; its `Exec_size` of 0 is refused (R50). -/
theorem test_table_word_is_fetched :
    refusalOf (step (State.reset.withFetchWord 16 0x096d)) = some (.illFormed .badExecSize) := by
  decide +kernel

/-! ## Witnesses: the hypotheses of each obligation are met -/

theorem ready_of {op : SampleOp} {f : Fields} {s : State} (h : firstIllFormed s.decls (Instr.of op f) = none)
    (hg : (gather op f s).toOption.isSome = true) : Ready op f s := by
  refine ready_iff_gather.2 ⟨h, ?_⟩
  cases hr : gather op f s with
  | error e =>
    rw [hr] at hg
    cases hg
  | ok req => exact ⟨req, rfl⟩

theorem inputsReady_of {op : SampleOp} {f : Fields} {s : State}
    (h : firstIllFormed s.decls (Instr.of op f) = none)
    (hp : (predEval s.cfg s.prd s.em f.pred f.emctrl f.lanes).isSome = true)
    (ho : (readOffsets f s).toOption.isSome = true)
    (hr : ((readParams s (elemSize (paramType f s)) f.lanes (paramNames op) f.params).toOption.any
      (biasOk (paramType f s))) = true) : InputsReady op f s := by
  have hw : WellFormed s.decls (Instr.of op f) := h
  cases hro : readOffsets f s with
  | error e =>
    rw [hro] at ho
    cases ho
  | ok o =>
    cases hrp : readParams s (elemSize (paramType f s)) f.lanes (paramNames op) f.params with
    | error e =>
      rw [hrp] at hr
      cases hr
    | ok params =>
      rw [hrp] at hr
      have hall := (readParams_ok_iff hw.count).1 ⟨params, hrp⟩
      exact {
        wellFormed := hw
        predicate := hp
        offsets := readOffsets_ok_iff.1 ⟨o, hro⟩
        paramsInside := fun p hp => (readParam_ok_iff.1 (hall p hp)).1
        paramsWritten := fun p hp => (readParam_ok_iff.1 (hall p hp)).2
        bias := (biasOk_iff ((paramType_f_or_hf hw).imp id And.right) hrp).1 hr }

/-- The example of R94 and its code. -/
def sampleCode : List Byte := [0x6d, 0x00, 0x03, 0, 0, 0x0f, 0, 0, 0, 0x00, 0x01, 10, 0x02, 20, 21]

/-- The example of R101, with the null mask, and its code. -/
def lodCode : List Byte := [0x6d, 0x29, 0x03, 0, 0, 0x03, 0, 0, 0, 0x00, 0x01, 10, 0x02, 20, 21]

def sampleInstr : Instr := .sample (fieldsOf 10 [20, 21])

def lodInstr : Instr := .lod { fieldsOf 10 [20, 21] with pnm := true, channels := 0b0011 }

theorem witness_OpcodeByteSelects :
    encode codecs sampleInstr = some sampleCode ∧ (0x6c : Byte) ≠ 0x6d := by decide +kernel

theorem witness_UnlistedOperationsRefused :
    ∀ b ∈ ([0x07, 0x08, 0x0a, 0x13, 0x15, 0x17, 0x1a, 0xff] : List Byte),
      b.toNat % 32 ∉ [0x00, 0x01, 0x02, 0x03, 0x04, 0x05, 0x06, 0x09, 0x14, 0x18, 0x19] := by decide

theorem witness_OperationCodes : (0b00111 : BitVec 5) ∉ SampleOp.all.map SampleOp.bits := by decide

theorem witness_FieldsAreTheirBits :
    decode codecs (sampleCode ++ [0x6d]) = .ok (sampleInstr, [0x6d]) := by rfl

theorem codecs_wf : codecs.wf := by
  constructor
  · decide
  · decide +kernel

/-- The longest list of parameters that one byte can count. -/
theorem witness_DecodeOfEncode :
    codecs.wf ∧ (encode codecs (.sample { base with params := List.replicate 255 ⟨2, 0⟩ })).isSome = true ∧
      (List.replicate 255 (⟨2, 0⟩ : RawOperand)).length < 256 :=
  ⟨codecs_wf, by decide +kernel, by decide +kernel⟩

theorem witness_EncodeOfDecode :
    (codecs.scalars.map Prod.snd).Nodup ∧ (codecs.raws.map Prod.snd).Nodup ∧
      decode codecs (sampleCode ++ [0x6d]) = .ok (sampleInstr, [0x6d]) :=
  ⟨by decide, by decide +kernel, rfl⟩

theorem witness_EncodedLength :
    encode codecs sampleInstr = some sampleCode ∧
      codeOf codecs.scalars sampleInstr.fields.aoffimmi = some [0, 0, 0] ∧
      (sampleInstr.fields.dst :: sampleInstr.fields.params).map (codeOf codecs.raws) =
        [[10], [20], [21]].map some := by decide +kernel

theorem witness_ProgramIsCutIntoRecords :
    codecs.wf ∧ (∀ i ∈ [sampleInstr, lodInstr], i.fields.params.length < 256) ∧
      [sampleInstr, lodInstr].map (encode codecs) = [sampleCode, lodCode].map some :=
  ⟨codecs_wf, by decide, by decide +kernel⟩

theorem witness_IllFormedInstructionsRefused :
    firstIllFormed demo.decls (.lod { base with channels := 0 }) = some .noChannelEnabled := by decide

/-- A state whose program is one instruction over the variables above, then bytes that spell none. -/
def running : State :=
  { demo with program := [[0x6d, 0x00, 0x03, 0, 0, 0x0f, 0, 0, 0, 0x00, 0x01, 0, 0x02, 2, 2], [0x6d, 0x07]] }

theorem witness_StepRunsDecodedInstruction :
    running.unmarked ∧ running.program[running.pc]?.isSome = true ∧
      running.program[0]?.map (decode running.cfg.codecs) = some (.ok (.sample base, [])) :=
  ⟨by decide, by decide, rfl⟩

theorem witness_StepRefusesWithoutInstruction :
    (demo.unmarked ∧ demo.program.length ≤ demo.pc) ∧
    ({ running with pc := 1 }.unmarked ∧
      running.program[1]?.map (decode running.cfg.codecs) = some (.error .unlistedOp)) :=
  ⟨by decide, by decide, rfl⟩

theorem witness_PlacedWordRunsNext :
    ∃ i rest, decode State.reset.cfg.codecs (tableRecord State.reset.cfg.codecs 16 0x096d) = .ok (i, rest) :=
  ⟨_, _, rfl⟩

/-- A state whose next step faults. -/
def faulting : State :=
  { running with vars := vars.set 2 ⟨.f, 64, []⟩ }

theorem witness_FaultSetsTheMarkAlone : step faulting = .fault .unwrittenRead :=
  eq_fault (by decide +kernel)

theorem witness_RefusalSetsTheMarkAlone :
    { running with pc := 1 }.unmarked ∧ step { running with pc := 1 } = .refused (.undecodable .unlistedOp) :=
  ⟨by decide, eq_refused (by decide +kernel)⟩

theorem running_inv : StateInv running :=
  ⟨by decide +kernel, by decide, by decide, by decide⟩

theorem witness_RunOverExactlyAtTheEnd :
    StateInv demo ∧ demo.unmarked ∧ demo.final ∧ running.unmarked ∧ ¬ running.final :=
  ⟨⟨running_inv.vars, by decide, by decide, by decide⟩, by decide, by decide, by decide, by decide⟩

/-- The frame, the footprint and every result: each operation is ready somewhere; here with some pixels
disabled. -/
theorem witness_SampleOperationsReturnData : ∀ op ∈ SampleOp.all, Ready op base demo := by
  intro op _
  cases op <;> exact ready_of (by decide) (by decide +kernel)

/-- With the null mask, and a destination that fits exactly. -/
theorem witness_NullMask : ∀ op ∈ SampleOp.all, Ready op prog3 demo := by
  intro op _
  cases op <;> exact ready_of (by decide) (by decide +kernel)

theorem witness_LodReturnsLevels :
    Ready .lod base demo ∧ ∀ c ∈ [Channel.R, .G, .B, .A], base.enables c = true :=
  ⟨witness_SampleOperationsReturnData _ (by decide), by decide⟩

/-- Lane 4 is disabled by the execution mask. -/
theorem witness_DisabledPixelsKeepTheirElements :
    Ready .sample base demo ∧ base.enables .A = true ∧ 4 < base.lanes ∧ 3 < dstSize base demo ∧
      enabledPixels base demo = .ok 0x000f :=
  ⟨witness_SampleOperationsReturnData _ (by decide), by decide, by decide, by decide, by rfl⟩

/-- Data of 16 bytes in a register of 32. -/
theorem witness_UndefinedRemaindersHoldValues :
    Ready .sampleLz { halves with pnm := true } demo ∧ halves.enables .A = true ∧
      halves.lanes * dstSize halves demo ≤ 16 ∧ 31 < stride halves demo :=
  ⟨ready_of (by decide) (by decide +kernel), by decide, by decide, by decide⟩

/-- Every constructor answers a next state. -/
theorem witness_InstructionFrame : ∀ op ∈ SampleOp.all, ∃ t, exec (Instr.of op base) demo = .next t := by
  intro op _
  cases op <;> exact exists_next (by decide +kernel)

theorem witness_StepsNeverUnwrite :
    (∃ t, step running = .next t) ∧ (running.byteAt 2 63).isSome = true :=
  ⟨exists_next (by decide +kernel), by decide +kernel⟩

theorem witness_RequestIsDetermined : ∃ req, WellFormed demo.decls (Instr.of .sampleB base) ∧
    IsRequest .sampleB base demo req := by
  obtain ⟨hw, req, h⟩ := ready_iff_gather.1 (witness_SampleOperationsReturnData .sampleB (by decide))
  exact ⟨req, hw, gather_isRequest hw h⟩

/-- `sample_d` with two parameters skips eight. -/
theorem witness_SkippedParametersAreZero :
    (∃ t, exec (Instr.of .sampleD base) demo = .next t) ∧
      ((paramNames .sampleD).drop base.params.length).length = 8 :=
  ⟨witness_InstructionFrame _ (by decide), by decide⟩

theorem witness_BlocksCountEnabledChannels :
    halves.enables .G = true ∧ halves.enables .A = true ∧ halves.enables .R = false := by decide

theorem witness_BlocksDoNotMeet :
    halves.enables .G = true ∧ halves.enables .A = true ∧ Channel.G ≠ .A := by decide

theorem witness_EnabledPixelsAreLanes : ∃ req, WellFormed demo.decls (Instr.of .sample base) ∧
    IsRequest .sample base demo req ∧ base.lanes ≤ 8 := by
  obtain ⟨hw, req, h⟩ := ready_iff_gather.1 (witness_SampleOperationsReturnData .sample (by decide))
  exact ⟨req, hw, gather_isRequest hw h, by decide⟩

/-- The small machine, but for all that `base` does not read: the type and length of a variable it does not
name, the bytes of `Dst`, the other surface and sampler, `pc`, the program. -/
def elsewhere : State :=
  { demo with
    pc := 5, program := [[]], vars := (vars.set 0 ⟨.f, 128, zeros 0 128⟩).set 9 ⟨.hf, 4, []⟩
    srf := [⟨.cube, [], false⟩, ⟨.dim2, [3], true⟩], smp := [⟨[], true⟩, ⟨[], false⟩] }

theorem sameInputs_of_vars {s : State} (hcfg : s.cfg = config) (hprd : s.prd = predicates)
    (hem : s.em = demo.em) (hsmp : s.smp[0]?.isSome = true) (hsrf : s.srf[1]?.map Surface.type = some .dim2)
    (h0 : s.vars[0]?.map Variable.type = some .f ∧ s.vars[0]?.map Variable.size = some 128)
    (h2 : s.vars[2]? = vars[2]?) : SameInputs base demo s where
  cfg := hcfg
  prd := hprd
  em := hem
  smp := hsmp
  srf := hsrf
  vars := by
    rintro id (rfl | ⟨p, hp, rfl⟩ | h)
    · exact h0
    · obtain rfl : p = ⟨2, 0⟩ := by simpa [base] using hp
      exact ⟨congrArg (Option.map Variable.type) h2, congrArg (Option.map Variable.size) h2⟩
    · cases h
  bytes := by
    rintro id a (⟨p, hp, rfl, -, -⟩ | h)
    · obtain rfl : p = ⟨2, 0⟩ := by simpa [base] using hp
      unfold State.byteAt
      rw [h2]
      rfl
    · cases h

/-- Also with another stamp of the draws, and other contents of the surface and the sampler. -/
theorem witness_RequestDependsOnFootprint :
    Ready .sample base demo ∧
      SameInputs base demo { elsewhere with
        draws := 9, srf := [⟨.cube, [], false⟩, ⟨.dim2, [], false⟩], smp := [⟨[7], false⟩] } :=
  ⟨witness_SampleOperationsReturnData _ (by decide), sameInputs_of_vars rfl rfl rfl rfl rfl ⟨rfl, rfl⟩ rfl⟩

/-- Each constructor completes in both. -/
theorem witness_ResultsDependOnFootprint :
    SameInputs base demo elsewhere ∧ elsewhere.srf[base.surface.toNat]? = demo.srf[base.surface.toNat]? ∧
      elsewhere.smp[base.sampler.toNat]? = demo.smp[base.sampler.toNat]? ∧ elsewhere.draws = demo.draws ∧
      ∀ op ∈ SampleOp.all, ∃ t, exec (Instr.of op base) demo = .next t :=
  ⟨sameInputs_of_vars rfl rfl rfl rfl rfl ⟨rfl, rfl⟩ rfl, rfl, rfl, rfl, witness_InstructionFrame⟩

/-- Each reason of a fault comes up. -/
theorem witness_FaultsHaveTheirReasons :
    exec (.sampleC { prog3 with params := [⟨5, 0⟩] }) demo = .fault .unwrittenRead ∧
    exec (.sampleC { prog3 with params := [⟨6, 0⟩] }) demo = .fault .outOfVariable ∧
    exec (.sample { base with aoffimmi := .var 4 }) demo = .fault .aoffimmiReservedBits ∧
    exec (.sampleB { base with params := [⟨6, 0⟩] }) demo = .fault .biasOutOfRange ∧
    exec (.sample { base with params := [⟨12, 0⟩], dst := ⟨12, 0⟩ }) demo = .fault .dstParamOverlap :=
  ⟨eq_fault (by decide +kernel), eq_fault (by decide +kernel), eq_fault (by decide +kernel),
    eq_fault (by decide +kernel), eq_fault (by decide +kernel)⟩

theorem witness_WellFormedAndNotReadyFaults :
    WellFormed demo.decls (.sample { base with dst := ⟨10, 0⟩ }) ∧
      ¬ Ready .sample { base with dst := ⟨10, 0⟩ } demo :=
  ⟨by decide, fun h => absurd h.fits (by decide)⟩

/-- The parameters of the two operations with a bias; the last lane is a boundary. -/
theorem witness_BiasOutOfRangeFaults :
    let f := { base with params := [⟨6, 0⟩] }
    WellFormed demo.decls (Instr.of .sampleB f) ∧
      (predEval demo.cfg demo.prd demo.em f.pred f.emctrl f.lanes).isSome = true ∧
      OffsetsReady demo f.aoffimmi ∧
      (∀ p ∈ f.params, p.off + paramBytes f demo ≤ demo.sizeOfVar p.id ∧
        ∀ k < paramBytes f demo, (demo.byteAt p.id (p.off + k)).isSome = true) ∧
      (ParamName.bias, ⟨6, 0⟩) ∈ (paramNames .sampleB).zip f.params ∧ 2 < f.lanes ∧
      demo.elemAt ⟨6, 0⟩ (elemSize (paramType f demo)) 2 = some 0x41880000 ∧
      biasInRange (paramType f demo) 0x41880000 = false :=
  ⟨by decide, by decide, rfl, by decide +kernel, by decide, by decide, by decide +kernel, by decide +kernel⟩

/-- Element 12 of a parameter, in a disabled lane. -/
theorem witness_UnwrittenParameterFaults :
    let f := { prog3 with params := [⟨2, 0⟩, ⟨5, 0⟩] }
    WellFormed demo.decls (Instr.of .sample f) ∧
      (predEval demo.cfg demo.prd demo.em f.pred f.emctrl f.lanes).isSome = true ∧
      OffsetsReady demo f.aoffimmi ∧ (∀ p ∈ f.params, p.off + paramBytes f demo ≤ demo.sizeOfVar p.id) ∧
      ⟨5, 0⟩ ∈ f.params ∧ 48 < paramBytes f demo ∧ demo.byteAt 5 48 = none ∧
      enabledPixels f demo = .ok 0x000f :=
  ⟨by decide, by decide +kernel, rfl, by decide, by decide, by decide, by decide +kernel, by rfl⟩

theorem witness_ReservedOffsetBitsFault :
    demo.cfg.scalarReading = .recommended ∧ WellFormed demo.decls (.lod { base with aoffimmi := .var 4 }) ∧
      (predEval demo.cfg demo.prd demo.em base.pred base.emctrl base.lanes).isSome = true ∧
      demo.byteAt 4 0 = some 0x00 ∧ demo.byteAt 4 1 = some 0x10 ∧ (0x10 : Byte).extractLsb' 4 4 ≠ 0 := by decide

theorem witness_SmallDestinationFaults :
    InputsReady .sampleDC { prog3 with dst := ⟨10, 0⟩ } demo ∧
      demo.sizeOfVar 10 < 0 + writebackBytes { prog3 with dst := ⟨10, 0⟩ } demo :=
  ⟨inputsReady_of (by decide) (by decide +kernel) rfl (by decide +kernel), by decide⟩

/-- The last byte of a parameter is the first of the writeback; and a writeback over the variable that
`Aoffimmi` names. -/
theorem witness_OverlapFaults :
    (let f := { base with channels := 0b0001, dst := ⟨12, 0⟩, params := [⟨12, 0⟩] }
     InputsReady .sample f demo ∧ f.dst.off + writebackBytes f demo ≤ demo.sizeOfVar 12 ∧
      demo.cfg.allowDstParamOverlap = false ∧ InWriteback f demo 12 31 ∧ KeptApart f demo 12 31) ∧
    let f := { base with channels := 0b0001, dst := ⟨12, 32⟩, aoffimmi := .var 12 }
    InputsReady .sample f demo ∧ f.dst.off + writebackBytes f demo ≤ demo.sizeOfVar 12 ∧
      InWriteback f demo 12 63 ∧ KeptApart f demo 12 63 := by
  refine ⟨⟨inputsReady_of (by decide) (by decide) rfl (by decide +kernel), by decide, rfl, ⟨rfl, by decide, by decide⟩,
    .inl ⟨⟨12, 0⟩, by decide, rfl, by decide, by decide⟩⟩,
    inputsReady_of (by decide) (by decide) (by decide +kernel) (by decide +kernel), by decide,
    ⟨rfl, by decide, by decide⟩, .inr ⟨List.mem_singleton.2 rfl, by decide⟩⟩

theorem witness_UnwrittenPredicateOrOffsetsFault :
    (WellFormed demo.decls (.sample { base with pred := 2 }) ∧
      predEval demo.cfg demo.prd demo.em 2 base.emctrl base.lanes = none) ∧
    demo.cfg.scalarReading = .recommended ∧
    (WellFormed demo.decls (.sample { base with aoffimmi := .var 11 }) ∧ demo.byteAt 11 1 = none) ∧
    (WellFormed demo.decls (.sample { base with aoffimmi := .var 0 }) ∧ demo.byteAt 0 0 = none) := by
  decide +kernel

/-- Operands whose value is open: of a kind R19 does not describe, or every one under the uninterpreted
reading, an immediate too. What they answer is a free value, so that each case of the statements about
them may be the one that holds. -/
theorem witness_open_operands :
    WellFormed demo.decls (.sample { base with aoffimmi := .other 0 [3, 11] }) ∧
    ScalarIsOpen demo (.other 0 [3, 11]) ∧ (openScalar16 demo (.other 0 [3, 11]) =
      Config.readScalar16 (.other 0 [3, 11])
        [some (.uw, [some 0x18, some 0x0f]), some (.uw, [some 0, none])]) ∧
    ScalarIsOpen { demo with cfg := { config with scalarReading := .uninterpreted } } base.aoffimmi :=
  ⟨by decide, trivial, rfl, trivial⟩

/-- A second parameter that passes the end of its variable, and one with an unwritten element. -/
theorem witness_FirstUnreadableParameterFaults : ∀ bad ∈ [(⟨6, 0⟩ : RawOperand), ⟨5, 0⟩],
    let f := { prog3 with params := [⟨2, 0⟩, bad, ⟨5, 0⟩] }
    WellFormed demo.decls (Instr.of .sampleC f) ∧
      (predEval demo.cfg demo.prd demo.em f.pred f.emctrl f.lanes).isSome = true ∧
      OffsetsReady demo f.aoffimmi ∧ f.params = [⟨2, 0⟩] ++ bad :: [⟨5, 0⟩] ∧
      (∀ q ∈ [(⟨2, 0⟩ : RawOperand)], q.off + paramBytes f demo ≤ demo.sizeOfVar q.id ∧
        ∀ k < paramBytes f demo, (demo.byteAt q.id (q.off + k)).isSome = true) ∧
      (bad = ⟨6, 0⟩ ∧ demo.sizeOfVar bad.id < bad.off + paramBytes f demo ∨
        bad.off + paramBytes f demo ≤ demo.sizeOfVar bad.id ∧ 48 < paramBytes f demo ∧
          demo.byteAt bad.id 48 = none) := by
  intro bad hb
  simp only [List.mem_cons, List.not_mem_nil, or_false] at hb
  rcases hb with rfl | rfl
  · exact ⟨by decide, by decide +kernel, rfl, rfl, by decide +kernel, .inl ⟨rfl, by decide⟩⟩
  · exact ⟨by decide, by decide +kernel, rfl, rfl, by decide +kernel, .inr ⟨by decide, by decide, by decide +kernel⟩⟩

/-- The last lane that is in, and the first that is out. -/
theorem witness_RecommendedLaneMask :
    config.laneReading = .recommended ∧ (laneEnable config 0xffff0000 4 16).getLsbD 15 = true ∧
      (laneEnable config 0xffff0000 3 8).getLsbD 8 = false := by decide +kernel

/-- The four clauses: no predication, with the other bits of `Pred` set; an inverted predicate; bits that all
hold a value, under a combine control and with bit 12 set; a bit that holds no value, and one past the
end. -/
theorem witness_RecommendedPredicate :
    config.predReading = .recommended ∧ (0xf000 : BitVec 16).toNat % 4096 = 0 ∧
    ((0x8001 : BitVec 16).toNat % 4096 = 1 ∧ (0x8001 : BitVec 16).toNat / 8192 % 4 = 0 ∧
      (0x7001 : BitVec 16).toNat % 4096 = 1 ∧ (0x7001 : BitVec 16).toNat / 8192 % 4 = 3 ∧
      ∀ i < 16, ∃ bits, predicates[1]? = some bits ∧
        bits[4 * ((0 : BitVec 4).toNat % 8) + i]? = some (some (decide (i < 8)))) ∧
    (∀ bits, predicates[2]? = some bits → ∀ b, bits[4 * ((0 : BitVec 4).toNat % 8) + 3]? ≠ some (some b)) ∧
    ∀ bits, predicates[1]? = some bits → ∀ b, bits[4 * ((1 : BitVec 4).toNat % 8) + 12]? ≠ some (some b) := by
  refine ⟨rfl, by decide, ⟨by decide, by decide, by decide, by decide, ?_⟩, ?_, ?_⟩
  · intro i hi
    exact ⟨_, rfl, by revert i; decide⟩
  · rintro _ ⟨rfl⟩
    decide
  · rintro _ ⟨rfl⟩
    decide

theorem witness_StepKeepsInvariant : StateInv running ∧ ∃ t, step running = .next t :=
  ⟨running_inv, exists_next (by decide +kernel)⟩

theorem witness_RunsAreStraightLine : ∃ t : State, Host.Core.run Sys2Proof.core 1 running = .next t := by
  obtain ⟨t, h⟩ := witness_StepKeepsInvariant.2
  exact ⟨t, by simp only [Host.Core.run, Sys2Proof.core, h]⟩

/-- The prefix that lacks one byte. -/
theorem witness_ProperPrefixesAreTruncated :
    codecs.wf ∧ sampleInstr.fields.params.length < 256 ∧ encode codecs sampleInstr = some sampleCode ∧
      14 < sampleCode.length :=
  ⟨codecs_wf, by decide, by decide +kernel, by decide⟩

/-- The byte 7 begins no code of `Aoffimmi`, and 255 none of a raw operand. -/
theorem witness_UnreadableOperandsRefused :
    codecs.wf ∧ SampleOp.ofBits ((0x00 : Byte).extractLsb' 0 5) ≠ none ∧ SpellsNoCode codecs.scalars [7] ∧
      [0, 0, 0] ∈ codecs.scalars.map Prod.fst ∧ SpellsNoCode codecs.raws [255] ∧
      [10] ∈ codecs.raws.map Prod.fst ∧ (∀ code ∈ [[20], [21]], code ∈ codecs.raws.map Prod.fst) ∧
      [[20], [21]].length < (3 : Byte).toNat := by
  refine ⟨codecs_wf, by decide, ?_, by decide, ?_, by decide, by decide, by decide⟩ <;>
    · unfold SpellsNoCode
      decide +kernel

theorem witness_ScalarOperandsRead :
    demo.cfg.scalarReading = .recommended ∧ demo.byteAt 3 0 = some 0x18 ∧ demo.byteAt 3 1 = some 0x0f ∧
      demo.byteAt 11 1 = none ∧ readScalar16 demo (.var 11) = .error .unwrittenRead :=
  ⟨rfl, rfl, rfl, rfl, rfl⟩

end Sys2Proof.Tests
end

namespace Sys2Proof

/-! ## The opcode byte (R45) -/

/-- What is encoded, in the order of R43: an instruction has a code exactly when each operand has one. -/
theorem encode_eq_some {c : Codecs} {i : Instr} {code : List Byte} :
    encode c i = some code ↔ ∃ aoffimmi dst params,
      codeOf c.scalars i.fields.aoffimmi = some aoffimmi ∧ codeOf c.raws i.fields.dst = some dst ∧
      codesOf c.raws i.fields.params = some params ∧
      code = [opcodeByte, i.fields.opByte i.op, i.fields.execByte, i.fields.pred.extractLsb' 0 8,
          i.fields.pred.extractLsb' 8 8, i.fields.channelsByte] ++ aoffimmi ++
        [i.fields.sampler, i.fields.surface] ++ dst ++ [BitVec.ofNat 8 i.fields.params.length] ++ params := by
  simp only [encode]
  constructor
  · intro h
    split at h
    next aoffimmi dst params hscalar hdst hparams =>
      exact ⟨aoffimmi, dst, params, hscalar, hdst, hparams, (Option.some.inj h).symm⟩
    next => cases h
  · rintro ⟨aoffimmi, dst, params, hscalar, hdst, hparams, rfl⟩
    rw [hscalar, hdst, hparams]

theorem head?_of_encode {c : Codecs} {i : Instr} {code : List Byte} (h : encode c i = some code) :
    code.head? = some opcodeByte := by
  obtain ⟨aoffimmi, dst, params, -, -, -, rfl⟩ := encode_eq_some.1 h
  rfl

/-- The first byte is tested before a second one is asked for (log entry 7). -/
theorem decode_of_ne_opcodeByte {b : Byte} (hb : b ≠ opcodeByte) (c : Codecs) (bs : List Byte) :
    decode c (b :: bs) = .error .notThisOpcode := by
  cases bs with
  | nil => exact if_neg hb
  | cons opByte bs => exact if_neg hb

/-- Settles O1: the encoder writes `opcodeByte` first whatever the codecs are, and the decoder refuses any
other first byte before it reads on. -/
theorem opcodeByteSelects : Obligations.OpcodeByteSelects :=
  ⟨fun _ _ _ h => head?_of_encode h, fun c _ bs hb => decode_of_ne_opcodeByte hb c bs⟩

/-! ## The operations (R46, R69) -/

/-- `SampleOp.ofBits` answers only an operation that has these bits, and each is in the list of all. -/
theorem ofBits_eq_none {b : BitVec 5} (h : b ∉ SampleOp.all.map SampleOp.bits) :
    SampleOp.ofBits b = none := by
  cases hop : SampleOp.ofBits b with
  | none => rfl
  | some op =>
    have hmem : op ∈ SampleOp.all := List.mem_of_find?_eq_some hop
    exact absurd (bits_of_ofBits hop ▸ List.mem_map_of_mem hmem) h

/-- A row of R46's table: the bits, the operation and its parameter count. -/
def operationRow (op : SampleOp) : BitVec 5 × SampleOp × Nat :=
  (op.bits, op, op.count)

/-- Settles O2: R46's table is the row of each operation in turn, so its rows are read back by `ofBits_bits`,
and its first column is the bits of all the operations. -/
theorem operationCodes : Obligations.OperationCodes := by
  change (∀ row ∈ SampleOp.all.map operationRow, SampleOp.ofBits row.1 = some row.2.1 ∧
      row.2.1.bits = row.1 ∧ row.2.1.count = row.2.2) ∧
    ∀ b, b ∉ SampleOp.all.map SampleOp.bits → SampleOp.ofBits b = none
  refine ⟨fun row hrow => ?_, fun _ => ofBits_eq_none⟩
  obtain ⟨op, -, rfl⟩ := List.mem_map.1 hrow
  exact ⟨ofBits_bits op, rfl, rfl⟩

/-- Settles O11: `mnemonic` and `paramNames`, evaluated at the eleven operations in the order of R46, are the
rows of R69. -/
theorem textMnemonics : Obligations.TextMnemonics := rfl

end Sys2Proof

namespace Sys2Proof

/-! ## Readers (R43): one field after another

`takeByte`, `readCode` and `readRaws` are readers; `readFields` is a chain of them. What is read and refused is
proved of each, and of one after another once. -/

/-- A reader answers what it read and the bytes after it. -/
abbrev Reader (α : Type) := List Byte → Except DecodeError (α × List Byte)

/-- Nothing is read, and `x` is answered. -/
def Reader.done {α : Type} (x : α) : Reader α :=
  fun bs => .ok (x, bs)

/-- Read by `p`, and what follows by `q`. -/
def Reader.andThen {α β : Type} (p : Reader α) (q : α → Reader β) : Reader β :=
  fun bs => p bs >>= fun r => q r.1 r.2

/-- The fields that the cut pieces of R43 give. -/
def fieldsOfBytes (opByte exec predLow predHigh channels : Byte) (aoffimmi : ScalarOperand)
    (sampler surface : Byte) (dst : RawOperand) (params : List RawOperand) : Fields where
  pnm := opByte.getLsbD 5
  cps := opByte.getLsbD 6
  nonuni := opByte.getLsbD 7
  execSize := exec.extractLsb' 0 3
  execBit3 := exec.getLsbD 3
  emctrl := exec.extractLsb' 4 4
  pred := predHigh ++ predLow
  channels := channels.extractLsb' 0 4
  channelsHigh := channels.extractLsb' 4 4
  aoffimmi := aoffimmi
  sampler := sampler
  surface := surface
  dst := dst
  params := params

theorem readFields_eq (c : Codecs) (opByte : Byte) :
    readFields c opByte =
      Reader.andThen takeByte fun exec => .andThen takeByte fun predLow => .andThen takeByte fun predHigh =>
      .andThen takeByte fun channels => .andThen (readCode c.scalars) fun aoffimmi =>
      .andThen takeByte fun sampler => .andThen takeByte fun surface => .andThen (readCode c.raws) fun dst =>
      .andThen takeByte fun numParams => .andThen (readRaws c.raws numParams.toNat) fun params =>
      .done (fieldsOfBytes opByte exec predLow predHigh channels aoffimmi sampler surface dst params) :=
  rfl

theorem readRaws_succ_eq (table : List (List Byte × RawOperand)) (k : Nat) :
    readRaws table (k + 1) =
      Reader.andThen (readCode table) fun p => .andThen (readRaws table k) fun ps => .done (p :: ps) := by
  funext bs
  rw [readRaws, Reader.andThen]
  cases readCode table bs with
  | error e => rfl
  | ok r =>
    simp only [Reader.andThen, bind, Except.bind]
    cases readRaws table k r.2 <;> rfl

namespace Reader

variable {α β : Type} {p : Reader α} {q : α → Reader β} {bs rest : List Byte}

theorem andThen_of_ok {x : α} (h : p bs = .ok (x, rest)) : p.andThen q bs = q x rest := by
  rw [andThen, h]
  rfl

theorem andThen_of_error {e : DecodeError} (h : p bs = .error e) : p.andThen q bs = .error e := by
  rw [andThen, h]
  rfl

theorem andThen_eq_ok {y : β} (h : p.andThen q bs = .ok (y, rest)) :
    ∃ x bs', p bs = .ok (x, bs') ∧ q x bs' = .ok (y, rest) := by
  cases hp : p bs with
  | error e =>
    rw [andThen_of_error hp] at h
    cases h
  | ok r => exact ⟨r.1, r.2, rfl, by rwa [andThen_of_ok hp] at h⟩

/-- `code` is the code of `x` for the reader `p`: it is read as `x` whatever follows, and cut short anywhere it
is refused as truncated. -/
def Reads (p : Reader α) (code : List Byte) (x : α) : Prop :=
  (∀ rest, p (code ++ rest) = .ok (x, rest)) ∧ ∀ k < code.length, p (code.take k) = .error .truncated

/-- The proper prefixes of two codes are those of the first, and the first with those of the second. -/
theorem Reads.andThen {code code' : List Byte} {x : α} {y : β} (hp : Reads p code x)
    (hq : Reads (q x) code' y) : Reads (p.andThen q) (code ++ code') y := by
  refine ⟨fun rest => ?_, fun k hk => ?_⟩
  · rw [List.append_assoc, andThen_of_ok (hp.1 _), hq.1]
  · rw [List.length_append] at hk
    rw [List.take_append]
    by_cases hlt : k < code.length
    · rw [Nat.sub_eq_zero_of_le hlt.le, List.take_zero, List.append_nil]
      exact andThen_of_error (hp.2 k hlt)
    · rw [List.take_of_length_le (by omega), andThen_of_ok (hp.1 _)]
      exact hq.2 _ (by omega)

theorem reads_done (x : α) : Reads (done x) [] x :=
  ⟨fun _ => rfl, fun k hk => absurd hk (Nat.not_lt_zero k)⟩

theorem reads_done_of_eq {x y : α} (h : x = y) : Reads (done x) [] y :=
  h ▸ reads_done x

end Reader

open Reader

theorem reads_takeByte (b : Byte) : Reads takeByte [b] b := by
  refine ⟨fun _ => rfl, fun k hk => ?_⟩
  obtain rfl : k = 0 := Nat.lt_one_iff.1 hk
  rfl

/-- Where no code begins another (`prefixFree`), a code that is cut short is truncated. -/
theorem reads_readCode {α : Type} {table : List (List Byte × α)} (hp : prefixFree table) {x : α}
    {code : List Byte} (h : (code, x) ∈ table) : Reads (readCode table) code x := by
  refine ⟨readCode_append hp h, fun k hk => ?_⟩
  have hpre : code.take k <+: code := List.take_prefix k code
  have hne : code.take k ≠ code := fun he => by
    have := congrArg List.length he
    rw [List.length_take] at this
    omega
  exact (readCode_eq_error fun e he => not_prefix_of_prefixFree hp he h hpre hne).1 ⟨_, h, hpre⟩

theorem codesOf_cons_eq_some {table : List (List Byte × RawOperand)} {p : RawOperand} {ps : List RawOperand}
    {codes : List Byte} :
    codesOf table (p :: ps) = some codes ↔
      ∃ code codes', codeOf table p = some code ∧ codesOf table ps = some codes' ∧ codes = code ++ codes' := by
  rw [codesOf]
  cases codeOf table p <;> cases codesOf table ps <;> simp [eq_comm]

theorem reads_readRaws {table : List (List Byte × RawOperand)} (hp : prefixFree table) {ps : List RawOperand}
    {codes : List Byte} (h : codesOf table ps = some codes) : Reads (readRaws table ps.length) codes ps := by
  induction ps generalizing codes with
  | nil =>
    cases h
    exact reads_done []
  | cons p ps ih =>
    obtain ⟨code, codes', hcode, hcodes, rfl⟩ := codesOf_cons_eq_some.1 h
    rw [List.length_cons, readRaws_succ_eq, ← List.append_nil codes']
    exact (reads_readCode hp (mem_of_codeOf hcode)).andThen ((ih hcodes).andThen (reads_done _))

/-- The bytes that the encoder writes for the fields, cut again, are those fields. -/
theorem fieldsOfBytes_self (f : Fields) (op : SampleOp) :
    fieldsOfBytes (f.opByte op) f.execByte (f.pred.extractLsb' 0 8) (f.pred.extractLsb' 8 8) f.channelsByte
      f.aoffimmi f.sampler f.surface f.dst f.params = f := by
  obtain ⟨-, hpnm, hcps, hnonuni⟩ := opByte_fields op f
  obtain ⟨hsize, hbit3, hctrl⟩ := execByte_fields f
  obtain ⟨hchannels, hhigh⟩ := channelsByte_fields f
  rw [fieldsOfBytes, hpnm, hcps, hnonuni, hsize, hbit3, hctrl, hchannels, hhigh, pred_of_bytes]

/-- The bytes after the two selecting ones, field by field. -/
theorem reads_readFields {c : Codecs} (hc : c.wf) {f : Fields} (op : SampleOp) {aoffimmi dst params : List Byte}
    (hlen : f.params.length < 256) (hscalar : codeOf c.scalars f.aoffimmi = some aoffimmi)
    (hdst : codeOf c.raws f.dst = some dst) (hparams : codesOf c.raws f.params = some params) :
    Reads (readFields c (f.opByte op)) ([f.execByte] ++ ([f.pred.extractLsb' 0 8] ++
      ([f.pred.extractLsb' 8 8] ++ ([f.channelsByte] ++ (aoffimmi ++ ([f.sampler] ++ ([f.surface] ++ (dst ++
      ([BitVec.ofNat 8 f.params.length] ++ (params ++ [])))))))))) f := by
  have hcount : (BitVec.ofNat 8 f.params.length).toNat = f.params.length := by
    rw [BitVec.toNat_ofNat, Nat.mod_eq_of_lt hlen]
  have hps : Reads (readRaws c.raws (BitVec.ofNat 8 f.params.length).toNat) params f.params := by
    rw [hcount]
    exact reads_readRaws hc.2 hparams
  rw [readFields_eq]
  exact (reads_takeByte _).andThen ((reads_takeByte _).andThen ((reads_takeByte _).andThen
    ((reads_takeByte _).andThen ((reads_readCode hc.1 (mem_of_codeOf hscalar)).andThen
    ((reads_takeByte _).andThen ((reads_takeByte _).andThen ((reads_readCode hc.2 (mem_of_codeOf hdst)).andThen
    ((reads_takeByte _).andThen (hps.andThen (reads_done_of_eq (fieldsOfBytes_self f op)))))))))))

/-! ## Decoding what was encoded, whole or cut short -/

/-- With a listed operation the fields decide what is decoded. -/
theorem decode_of_ofBits {c : Codecs} {opByte : Byte} {op : SampleOp}
    (h : SampleOp.ofBits (opByte.extractLsb' 0 5) = some op) :
    (fun bs => decode c (opcodeByte :: opByte :: bs)) =
      Reader.andThen (readFields c opByte) fun f => .done (Instr.of op f) := by
  funext bs
  simp only [decode, if_pos, h, Reader.andThen]
  cases readFields c opByte bs <;> rfl

/-- The two selecting bytes, and what the bytes after them are the code of. -/
theorem reads_decode_of_ofBits {c : Codecs} {opByte : Byte} {op : SampleOp} {body : List Byte} {f : Fields}
    (hop : SampleOp.ofBits (opByte.extractLsb' 0 5) = some op) (h : Reads (readFields c opByte) body f) :
    Reads (decode c) (opcodeByte :: opByte :: body) (Instr.of op f) := by
  have hbody := h.andThen (q := fun f => Reader.done (Instr.of op f)) (reads_done (Instr.of op f))
  rw [List.append_nil, ← decode_of_ofBits hop] at hbody
  refine ⟨hbody.1, fun k hk => ?_⟩
  match k with
  | 0 => rfl
  | 1 => rfl
  | k + 2 => exact hbody.2 k (by simpa using hk)

/-- The code of an instruction is read as that instruction by the decoder. -/
theorem reads_decode {c : Codecs} {i : Instr} {code : List Byte} (hc : c.wf)
    (hlen : i.fields.params.length < 256) (h : encode c i = some code) : Reads (decode c) code i := by
  obtain ⟨aoffimmi, dst, params, hscalar, hdst, hparams, rfl⟩ := encode_eq_some.1 h
  have hop : SampleOp.ofBits ((i.fields.opByte i.op).extractLsb' 0 5) = some i.op := by
    rw [(opByte_fields i.op i.fields).1, ofBits_bits]
  have hi := reads_decode_of_ofBits hop (reads_readFields hc i.op hlen hscalar hdst hparams)
  rw [Instr.of_op_fields] at hi
  simpa using hi

/-- Settles O6: the encoder's bytes are the code of the instruction for the decoder, reader by reader. -/
theorem decodeOfEncode : Obligations.DecodeOfEncode :=
  fun _ _ _ rest hc hlen h => (reads_decode hc hlen h).1 rest

/-- Settles O53: each reader refuses its code cut short, and reads it whole before the next one is asked. -/
theorem properPrefixesAreTruncated : Obligations.ProperPrefixesAreTruncated :=
  fun _ _ _ k hc hlen h hk => (reads_decode hc hlen h).2 k hk

end Sys2Proof

namespace Sys2Proof
open Reader

/-! ## What was decoded (R43) -/

theorem takeByte_eq_ok {bs rest : List Byte} {b : Byte} (h : takeByte bs = .ok (b, rest)) : bs = b :: rest := by
  cases bs with
  | nil => cases h
  | cons a bs =>
    cases h
    rfl

/-- The bytes that were cut, each operand's among the codes of its table, and the fields they give. -/
theorem readFields_eq_ok {c : Codecs} {opByte : Byte} {bs rest : List Byte} {f : Fields}
    (h : readFields c opByte bs = .ok (f, rest)) :
    ∃ (exec predLow predHigh channels : Byte) (aoffimmi dst : List Byte) (codes : List (List Byte)),
      bs = [exec, predLow, predHigh, channels] ++ aoffimmi ++ [f.sampler, f.surface] ++ dst ++
        [BitVec.ofNat 8 f.params.length] ++ codes.flatten ++ rest ∧
      f = fieldsOfBytes opByte exec predLow predHigh channels f.aoffimmi f.sampler f.surface f.dst f.params ∧
      (aoffimmi, f.aoffimmi) ∈ c.scalars ∧ (dst, f.dst) ∈ c.raws ∧
      List.Forall₂ (fun code p => (code, p) ∈ c.raws) codes f.params ∧ f.params.length < 256 := by
  rw [readFields_eq] at h
  obtain ⟨exec, _, h1, h⟩ := andThen_eq_ok h
  obtain ⟨predLow, _, h2, h⟩ := andThen_eq_ok h
  obtain ⟨predHigh, _, h3, h⟩ := andThen_eq_ok h
  obtain ⟨channels, _, h4, h⟩ := andThen_eq_ok h
  obtain ⟨_, _, h5, h⟩ := andThen_eq_ok h
  obtain ⟨_, _, h6, h⟩ := andThen_eq_ok h
  obtain ⟨_, _, h7, h⟩ := andThen_eq_ok h
  obtain ⟨_, _, h8, h⟩ := andThen_eq_ok h
  obtain ⟨numParams, _, h9, h⟩ := andThen_eq_ok h
  obtain ⟨params, _, h10, h⟩ := andThen_eq_ok h
  cases h
  obtain ⟨aoffimmi, hscalar, rfl⟩ := readCode_eq_ok h5
  obtain ⟨dst, hdst, rfl⟩ := readCode_eq_ok h8
  obtain ⟨hlen, codes, hcodes, rfl⟩ := readRaws_eq_ok h10
  cases takeByte_eq_ok h1
  cases takeByte_eq_ok h2
  cases takeByte_eq_ok h3
  cases takeByte_eq_ok h4
  cases takeByte_eq_ok h6
  cases takeByte_eq_ok h7
  cases takeByte_eq_ok h9
  refine ⟨exec, predLow, predHigh, channels, aoffimmi, dst, codes, ?_, rfl, hscalar, hdst, hcodes, ?_⟩
  · simp [fieldsOfBytes, hlen]
  · exact hlen ▸ numParams.isLt

/-- The two selecting bytes of what was decoded, and its fields. -/
theorem decode_eq_ok {c : Codecs} {bs rest : List Byte} {i : Instr} (h : decode c bs = .ok (i, rest)) :
    ∃ opByte body, bs = opcodeByte :: opByte :: body ∧ opByte.extractLsb' 0 5 = i.op.bits ∧
      readFields c opByte body = .ok (i.fields, rest) := by
  match bs with
  | [] => cases h
  | [b] =>
    simp only [decode] at h
    split at h <;> cases h
  | b :: opByte :: body =>
    simp only [decode] at h
    split at h
    case isFalse => cases h
    next hb =>
    split at h
    next => cases h
    next op hop =>
    split at h
    next => cases h
    next f rest' hf =>
    cases h
    refine ⟨opByte, body, by rw [hb], ?_, by rwa [Instr.fields_of]⟩
    rw [Instr.op_of, bits_of_ofBits hop]

/-- The low bits of a byte, as a number. -/
theorem toNat_low_bits (b : Byte) (k : Nat) : (b.extractLsb' 0 k).toNat = b.toNat % 2 ^ k := by
  rw [BitVec.extractLsb'_toNat, Nat.shiftRight_zero]

/-- The high four bits of a byte, as a number. -/
theorem toNat_high_bits (b : Byte) : (b.extractLsb' 4 4).toNat = b.toNat / 16 := by
  have := b.isLt
  rw [BitVec.extractLsb'_toNat, Nat.shiftRight_eq_div_pow]
  omega

/-- The number that a low and a high byte spell. -/
theorem toNat_append_bytes (high low : Byte) : (high ++ low).toNat = 256 * high.toNat + low.toNat := by
  rw [BitVec.toNat_append, Nat.shiftLeft_eq, Nat.mul_comm, ← Nat.two_pow_add_eq_or_of_lt low.isLt]

/-- Settles O5: the pieces that `decode_eq_ok` and `readFields_eq_ok` cut, their bits as numbers. -/
theorem fieldsAreTheirBits : Obligations.FieldsAreTheirBits := by
  intro c bs i rest h
  obtain ⟨op, body, rfl, hop, hf⟩ := decode_eq_ok h
  obtain ⟨exec, predLow, predHigh, channels, aoffimmi, dst, codes, rfl, hfields, hscalar, hdst, hcodes, hlen⟩ :=
    readFields_eq_ok hf
  have hopBits : i.op.bits.toNat = op.toNat % 32 := hop ▸ toNat_low_bits op 5
  refine ⟨op, exec, predLow, predHigh, channels, aoffimmi, dst, codes, rfl, hopBits, ?_⟩
  rw [hfields]
  exact ⟨rfl, rfl, rfl, toNat_low_bits exec 3, rfl, toNat_high_bits exec, toNat_append_bytes predHigh predLow,
    toNat_low_bits channels 4, toNat_high_bits channels, hscalar, hdst, hcodes, hlen⟩

/-! ## Encoding what was decoded -/

/-- Where each operand has one code, the codes that were read are those the encoder takes. -/
theorem codesOf_of_forall₂ {table : List (List Byte × RawOperand)} (hn : (table.map Prod.snd).Nodup)
    {codes : List (List Byte)} {ps : List RawOperand}
    (h : List.Forall₂ (fun code p => (code, p) ∈ table) codes ps) : codesOf table ps = some codes.flatten := by
  induction h with
  | nil => rfl
  | cons hcode _ ih => exact codesOf_cons_eq_some.2 ⟨_, _, codeOf_of_mem hn hcode, ih, rfl⟩

/-- The `Op` byte put together again from its bits. -/
theorem opByte_of_bits (b : Byte) :
    BitVec.ofBool (b.getLsbD 7) ++ BitVec.ofBool (b.getLsbD 6) ++ BitVec.ofBool (b.getLsbD 5) ++
      b.extractLsb' 0 5 = b := by
  revert b
  decide

/-- The `Exec_size` byte put together again. -/
theorem execByte_of_bits (b : Byte) :
    b.extractLsb' 4 4 ++ BitVec.ofBool (b.getLsbD 3) ++ b.extractLsb' 0 3 = b := by
  revert b
  decide

/-- The `Channels` byte put together again. -/
theorem channelsByte_of_bits (b : Byte) : b.extractLsb' 4 4 ++ b.extractLsb' 0 4 = b := by
  revert b
  decide

/-- Settles O7: each byte is put together again from its bits, and each operand has the code it was read
from. -/
theorem encodeOfDecode : Obligations.EncodeOfDecode := by
  intro c bs i rest hscalars hraws h
  obtain ⟨op, body, rfl, hop, hf⟩ := decode_eq_ok h
  obtain ⟨exec, predLow, predHigh, channels, aoffimmi, dst, codes, rfl, hfields, hscalar, hdst, hcodes, -⟩ :=
    readFields_eq_ok hf
  have hopByte : i.fields.opByte i.op = op := by
    rw [hfields, Fields.opByte, ← hop]
    exact opByte_of_bits op
  have hexecByte : i.fields.execByte = exec := by
    rw [hfields]
    exact execByte_of_bits exec
  have hchannelsByte : i.fields.channelsByte = channels := by
    rw [hfields]
    exact channelsByte_of_bits channels
  have hpred : i.fields.pred = predHigh ++ predLow := by
    rw [hfields]
    rfl
  refine ⟨_, encode_eq_some.2 ⟨_, _, _, codeOf_of_mem hscalars hscalar, codeOf_of_mem hraws hdst,
    codesOf_of_forall₂ hraws hcodes, rfl⟩, ?_⟩
  rw [hopByte, hexecByte, hchannelsByte, hpred, low_of_pred, high_of_pred]
  rfl

/-! ## Lengths and programs (R44, R22) -/

/-- The codes of a run of operands are the codes of each, one after another. -/
theorem codesOf_of_map {table : List (List Byte × RawOperand)} {ps : List RawOperand}
    {codes : List (List Byte)} (h : ps.map (codeOf table) = codes.map some) :
    codesOf table ps = some codes.flatten := by
  induction ps generalizing codes with
  | nil =>
    obtain rfl : codes = [] := by simpa using h.symm
    rfl
  | cons p ps ih =>
    cases codes with
    | nil => cases h
    | cons code codes =>
      obtain ⟨hcode, hcodes⟩ := List.cons.inj h
      exact codesOf_cons_eq_some.2 ⟨code, codes.flatten, hcode, ih hcodes, rfl⟩

/-- Settles O8: the formula of R44 counts the pieces that the encoder writes. -/
theorem encodedLength : Obligations.EncodedLength := by
  intro c i code aoffimmi raws h hscalar hraws
  cases raws with
  | nil => cases hraws
  | cons dst codes =>
    obtain ⟨hdst, hcodes⟩ := List.cons.inj hraws
    obtain ⟨aoffimmi', dst', params, hscalar', hdst', hparams, rfl⟩ := encode_eq_some.1 h
    cases hscalar.symm.trans hscalar'
    cases hdst.symm.trans hdst'
    cases (codesOf_of_map hcodes).symm.trans hparams
    simp only [List.length_append, List.length_cons, List.length_nil, List.length_flatten, List.map_cons,
      List.sum_cons]
    omega

theorem encode_ne_nil {c : Codecs} {i : Instr} {code : List Byte} (h : encode c i = some code) : code ≠ [] := by
  rintro rfl
  cases head?_of_encode h

/-- Cutting takes one instruction's bytes off as a record. -/
theorem cutRecords_append {c : Codecs} {i : Instr} {code rest : List Byte} (hne : code ≠ [])
    (h : decode c (code ++ rest) = .ok (i, rest)) {fuel : Nat} {records : List (List Byte)}
    (hrest : cutRecords c fuel rest = .ok records) :
    cutRecords c (fuel + 1) (code ++ rest) = .ok (code :: records) := by
  obtain ⟨b, bs, rfl⟩ := List.exists_cons_of_ne_nil hne
  have htake : (b :: bs ++ rest).take ((b :: bs ++ rest).length - rest.length) = b :: bs := by
    rw [List.length_append, Nat.add_sub_cancel, List.take_left]
  rw [List.cons_append] at h htake ⊢
  simp only [cutRecords, h, hrest, htake]

/-- As many records as bytes are enough: no record is empty. -/
theorem cutRecords_flatten {c : Codecs} (hc : c.wf) {is : List Instr} {codes : List (List Byte)}
    (hlen : ∀ i ∈ is, i.fields.params.length < 256) (h : is.map (encode c) = codes.map some) {fuel : Nat}
    (hfuel : codes.flatten.length ≤ fuel) : cutRecords c fuel codes.flatten = .ok codes := by
  induction is generalizing codes fuel with
  | nil =>
    obtain rfl : codes = [] := by simpa using h.symm
    cases fuel <;> rfl
  | cons i is ih =>
    cases codes with
    | nil => cases h
    | cons code codes =>
      obtain ⟨hcode, hcodes⟩ := List.cons.inj h
      obtain ⟨hi, his⟩ := List.forall_mem_cons.1 hlen
      have hne := encode_ne_nil hcode
      have hpos := List.length_pos_iff.2 hne
      rw [List.flatten_cons, List.length_append] at hfuel
      obtain ⟨fuel, rfl⟩ : ∃ k, fuel = k + 1 := ⟨fuel - 1, by omega⟩
      exact cutRecords_append hne ((reads_decode hc hi hcode).1 _) (ih his hcodes (by omega))

/-- Settles O9: each record is decoded whatever follows, and the bytes before the rest are its code. -/
theorem programIsCutIntoRecords : Obligations.ProgramIsCutIntoRecords :=
  fun _ _ _ hc hlen h => cutRecords_flatten hc hlen h le_rfl

/-! ## Bytes that spell no operand (R106) -/

/-- The two clauses of `SpellsNoCode` are what the table refuses as no operand. -/
theorem readCode_of_spellsNoCode {α : Type} {table : List (List Byte × α)} {bs : List Byte}
    (h : Machine.SpellsNoCode table bs) : readCode table bs = .error .operandCodec :=
  (readCode_eq_error fun e he => (h e he).1).2 fun e he => (h e he).2

/-- Each listed code is read, whatever follows. -/
theorem exists_readCode {α : Type} {table : List (List Byte × α)} (hp : prefixFree table) {code : List Byte}
    (h : code ∈ table.map Prod.fst) (rest : List Byte) : ∃ x, readCode table (code ++ rest) = .ok (x, rest) := by
  obtain ⟨⟨_, x⟩, he, rfl⟩ := List.mem_map.1 h
  exact ⟨x, readCode_append hp he rest⟩

/-- Fewer codes than operands are wanted, and then bytes that spell none. -/
theorem readRaws_of_spellsNoCode {table : List (List Byte × RawOperand)} (hp : prefixFree table)
    {codes : List (List Byte)} (hcodes : ∀ code ∈ codes, code ∈ table.map Prod.fst) {k : Nat}
    (hk : codes.length < k) {bs : List Byte} (h : Machine.SpellsNoCode table bs) :
    readRaws table k (codes.flatten ++ bs) = .error .operandCodec := by
  obtain ⟨k, rfl⟩ : ∃ j, k = j + 1 := ⟨k - 1, by omega⟩
  rw [readRaws_succ_eq]
  induction codes generalizing k with
  | nil => exact andThen_of_error (readCode_of_spellsNoCode h)
  | cons code codes ih =>
    obtain ⟨hcode, hcodes⟩ := List.forall_mem_cons.1 hcodes
    rw [List.length_cons] at hk
    obtain ⟨k, rfl⟩ : ∃ j, k = j + 1 := ⟨k - 1, by omega⟩
    obtain ⟨p, hp'⟩ := exists_readCode hp hcode (codes.flatten ++ bs)
    rw [List.flatten_cons, List.append_assoc, andThen_of_ok hp', readRaws_succ_eq]
    exact andThen_of_error (ih hcodes k (by omega))

/-- With a listed operation an error of the fields is the decoder's. -/
theorem decode_of_readFields_error {c : Codecs} {opByte : Byte} {bs : List Byte} {e : DecodeError}
    (hop : SampleOp.ofBits (opByte.extractLsb' 0 5) ≠ none) (h : readFields c opByte bs = .error e) :
    decode c (opcodeByte :: opByte :: bs) = .error e := by
  obtain ⟨op, hop⟩ := Option.ne_none_iff_exists'.1 hop
  exact (congrFun (decode_of_ofBits hop) bs).trans (andThen_of_error h)

/-- Settles O54: the fields before the operand are read, and the operand's reader refuses. -/
theorem unreadableOperandsRefused : Obligations.UnreadableOperandsRefused := by
  intro c op exec predLow predHigh channels sampler surface numParams bs hc hop
  refine ⟨fun h => ?_, fun aoffimmi haoffimmi => ⟨fun h => ?_, fun dst hdst codes hcodes hk h => ?_⟩⟩
  all_goals
    simp only [List.append_assoc, List.cons_append, List.nil_append]
    refine decode_of_readFields_error hop ?_
    rw [readFields_eq]
    iterate 4 refine (andThen_of_ok rfl).trans ?_
  · exact andThen_of_error (readCode_of_spellsNoCode h)
  all_goals
    obtain ⟨_, hscalar⟩ := exists_readCode hc.1 haoffimmi _
    refine (andThen_of_ok hscalar).trans ?_
    iterate 2 refine (andThen_of_ok rfl).trans ?_
  · exact andThen_of_error (readCode_of_spellsNoCode h)
  · obtain ⟨_, hraw⟩ := exists_readCode hc.2 hdst _
    refine (andThen_of_ok hraw).trans ?_
    refine (andThen_of_ok rfl).trans ?_
    exact andThen_of_error (readRaws_of_spellsNoCode hc.2 hcodes hk h)

/-- Settles O3: the table of R46 is the bits of all the operations, and the lookup comes before the fields. -/
theorem unlistedOperationsRefused : Obligations.UnlistedOperationsRefused := by
  intro c b bs hb
  have hlisted : SampleOp.all.map (fun op => op.bits.toNat) =
      [0x00, 0x01, 0x02, 0x03, 0x04, 0x05, 0x06, 0x09, 0x14, 0x18, 0x19] := rfl
  have hnone : SampleOp.ofBits (b.extractLsb' 0 5) = none := by
    refine ofBits_eq_none fun hmem => hb ?_
    obtain ⟨op, hop, heq⟩ := List.mem_map.1 hmem
    rw [← hlisted]
    refine List.mem_map.2 ⟨op, hop, ?_⟩
    rw [heq]
    exact toNat_low_bits b 5
  simp only [decode, hnone]
  rfl

/-- Settles O10: the decoder, run on the four words. -/
theorem writtenWordsDecode : Obligations.WrittenWordsDecode := ⟨rfl, rfl, rfl, rfl⟩

end Sys2Proof

namespace Sys2Proof
open Machine

/-! ## The text head (R68 to R70) -/

theorem opOfMnemonic_mnemonic (op : SampleOp) : opOfMnemonic (mnemonic op) = some op := by
  cases op <;> decide

/-- Settles O12: the suffix list is that of the three flags, and each of its eight values reads back. -/
theorem textHeadReadsBack : Obligations.TextHeadReadsBack := by
  intro i
  simp only [textHead, readTextHead, suffixes, opOfMnemonic_mnemonic]
  cases i.fields.pnm <;> cases i.fields.cps <;> cases i.fields.nonuni <;> simp

/-! ## The checks of R64, one by one -/

theorem cpsOk_iff {d : Decls} {op : SampleOp} {f : Fields} :
    cpsOk d op f = true ↔ (f.cps = true → d.cfg.platformGeIcllp = true ∧
      op ∈ [SampleOp.sample, .sampleB, .sampleBC, .sampleC, .lod]) := by
  have hop : op.cpsAvailable = true ↔ op ∈ [SampleOp.sample, .sampleB, .sampleBC, .sampleC, .lod] := by
    cases op <;> decide
  unfold cpsOk
  rw [Bool.or_eq_true, Bool.and_eq_true, hop]
  cases f.cps <;> simp

theorem listedLanes_isSome_iff {x : BitVec 3} : (listedLanes x).isSome = true ↔ x = 0b011 ∨ x = 0b100 := by
  revert x
  decide

theorem firstLane_eq (ctrl : BitVec 4) : firstLane ctrl = 4 * (ctrl.toNat % 8) := by
  rw [firstLane, BitVec.extractLsb'_toNat, Nat.shiftRight_zero]

theorem laneControlOk_iff {d : Decls} {f : Fields} :
    laneControlOk d f = true ↔
      (d.cfg.laneReading = .recommended → 4 * (f.emctrl.toNat % 8) + f.lanes ≤ 32) := by
  unfold laneControlOk
  cases d.cfg.laneReading <;> simp [firstLane_eq]

theorem aoffimmiOk_iff {f : Fields} :
    aoffimmiOk f = true ↔ ∀ a, f.aoffimmi = .imm a → a.toNat < 0x1000 := by
  unfold aoffimmiOk
  cases f.aoffimmi with
  | imm a => simpa [reservedBits] using reservedBits_eq_zero a
  | var id => simp
  | other term vars => simp

theorem dstTypeOk_iff {d : Decls} {f : Fields} :
    dstTypeOk d f = true ↔ ∃ t ∈ [ElemType.hf, .f, .w, .uw, .d, .ud], d.varTypes[f.dst.id]? = some t := by
  unfold dstTypeOk Decls.typeOf
  cases d.varTypes[f.dst.id]? with
  | none => simp
  | some t => cases t <;> simp

theorem paramTypesOk_iff {d : Decls} {f : Fields} :
    paramTypesOk d f = true ↔ (∀ p ∈ f.params, d.varTypes[p.id]? = some .f) ∨
      d.cfg.platformGeIcllp = true ∧ ∀ p ∈ f.params, d.varTypes[p.id]? = some .hf := by
  simp [paramTypesOk, Decls.typeOf]

theorem alignedOk_iff {d : Decls} {f : Fields} :
    alignedOk d f = true ↔ ∀ p ∈ f.dst :: f.params, d.cfg.grfBytes ∣ p.off := by
  simp [alignedOk, Nat.dvd_iff_mod_eq_zero]

/-- Settles O13: the rows of the table of checks, each by the lemma that says what it tests. -/
theorem wellFormedExactlyWhen : Obligations.WellFormedExactlyWhen := by
  intro d i
  rw [wellFormed_iff_checks, ← cpsOk_iff, ← listedLanes_isSome_iff, ← laneControlOk_iff, ← aoffimmiOk_iff,
    ← dstTypeOk_iff, ← paramTypesOk_iff, ← alignedOk_iff, ← SampleOp.count]
  simp [checks, and_assoc]

end Sys2Proof

namespace Sys2Proof.Machine

variable {op : SampleOp} {f : Fields} {s t : State} {req : SampleReq} {ret : Ret}

/-! ## The invariant (R121, R6) -/

/-- What is committed lies inside `Dst`'s variable, so every variable stays in canonical form. -/
theorem commit_vars_wf (hwf : WellFormed s.decls (Instr.of op f)) (hg : gather op f s = .ok req)
    (hvars : ∀ v ∈ s.vars, v.wf) : ∀ v ∈ (commit ret f s req).vars, v.wf := by
  intro v hv
  obtain ⟨id, hid⟩ := List.mem_iff_getElem?.1 hv
  rw [commit_vars] at hid
  by_cases h : id = f.dst.id
  · subst h
    obtain ⟨d, hd, hsize⟩ := dst_var hwf hg
    rw [getElem?_writeVar_self _ _ _ hd] at hid
    cases hid
    refine Variable.writeAll_wf (hvars d (List.mem_of_getElem? hd)) fun c hc => ?_
    have := writebackCells_inside hc
    omega
  · rw [getElem?_writeVar_other _ _ _ h] at hid
    exact hvars v (List.mem_of_getElem? hid)

/-- Settles O49: a step that gives a next state fetched inside the program and committed a writeback. -/
theorem stepKeepsInvariant : Obligations.StepKeepsInvariant := by
  intro s t hinv hstep
  obtain ⟨-, hpc, op, f, hexec⟩ := step_eq_next hstep
  obtain ⟨ret, req, hwf, hg, rfl⟩ := exec_eq_next hexec
  exact {
    vars := commit_vars_wf hwf hg hinv.vars
    pc := hpc
    smp := hinv.smp
    srf := hinv.srf }

/-- Settles O50: at reset there is no variable and no instruction, and 256 of each table. -/
theorem resetMeetsInvariant : Obligations.ResetMeetsInvariant where
  vars := fun _ hv => absurd hv List.not_mem_nil
  pc := le_rfl
  smp := (List.length_replicate ..).le
  srf := (List.length_replicate ..).le

/-- Settles O51: `State.launch` sets each field, and nothing is declared at reset. -/
theorem launchState : Obligations.LaunchState :=
  ⟨fun _ => ⟨rfl, rfl, rfl, rfl, rfl, rfl⟩, fun _ _ => rfl, fun _ _ => rfl⟩

/-! ## The step (R11, R22, R24) -/

theorem step_of_fetch_ok {i : Instr} (hs : s.unmarked) (h : fetch s = .ok i) : step s = exec i s := by
  unfold step
  rw [hs.1, hs.2, h]

theorem step_of_fetch_error {why : Refusal} (hs : s.unmarked) (h : fetch s = .error why) :
    step s = .refused why := by
  unfold step
  rw [hs.1, hs.2, h]
  rfl

theorem step_of_faulted {reason : Fault} (h : s.faulted = some reason) : step s = .fault reason := by
  unfold step
  rw [h]
  rfl

theorem step_of_refused {why : Refusal} (hf : s.faulted = none) (h : s.refused = some why) :
    step s = .refused why := by
  unfold step
  rw [hf, h]
  rfl

theorem fetch_of_decode_ok {record rest : List Byte} {i : Instr} (h : s.program[s.pc]? = some record)
    (hd : decode s.cfg.codecs record = .ok (i, rest)) : fetch s = .ok i := by
  simp only [fetch, h, hd]

theorem fetch_of_decode_error {record : List Byte} {reason : DecodeError}
    (h : s.program[s.pc]? = some record) (hd : decode s.cfg.codecs record = .error reason) :
    fetch s = .error (.undecodable reason) := by
  simp only [fetch, h, hd]

theorem fetch_of_no_record (h : s.program.length ≤ s.pc) : fetch s = .error .runOver := by
  unfold fetch
  rw [List.getElem?_eq_none h]

/-- A fetch that finds the run over found no record at `pc`. -/
theorem fetch_eq_runOver (h : fetch s = .error .runOver) : s.program.length ≤ s.pc := by
  by_contra hlt
  have hrecord := List.getElem?_eq_getElem (Nat.lt_of_not_le hlt)
  cases hd : decode s.cfg.codecs s.program[s.pc] with
  | error reason =>
    rw [fetch_of_decode_error hrecord hd] at h
    cases h
  | ok r =>
    rw [fetch_of_decode_ok hrecord hd] at h
    cases h

/-- Settles O15: with no mark set, fetching is decoding the record. -/
theorem stepRunsDecodedInstruction : Obligations.StepRunsDecodedInstruction :=
  fun _ _ _ _ hs hrecord hdecode => step_of_fetch_ok hs (fetch_of_decode_ok hrecord hdecode)

/-- Settles O16: what stops the fetch is the refusal of the step. -/
theorem stepRefusesWithoutInstruction : Obligations.StepRefusesWithoutInstruction :=
  fun _ hs => ⟨fun h => step_of_fetch_error hs (fetch_of_no_record h),
    fun _ _ hrecord hdecode => step_of_fetch_error hs (fetch_of_decode_error hrecord hdecode)⟩

/-- Settles O17: the placed record is the one at `pc`, and the marks are cleared. -/
theorem placedWordRunsNext : Obligations.PlacedWordRunsNext :=
  fun s nbits w i rest h => stepRunsDecodedInstruction (s.withFetchWord nbits w) _ i rest ⟨rfl, rfl⟩
    (getElem?_placeRecord s.program s.pc _) h

/-- Settles O18: what is recorded is the mark, and a marked state answers its mark. -/
theorem faultSetsTheMarkAlone : Obligations.FaultSetsTheMarkAlone := by
  intro s reason h
  rw [h, record_fault]
  exact ⟨rfl, rfl, step_of_faulted rfl⟩

/-- Settles O19: likewise for a refusal, where no fault was recorded before. -/
theorem refusalSetsTheMarkAlone : Obligations.RefusalSetsTheMarkAlone := by
  intro s why hs h
  rw [h, record_refused]
  exact ⟨rfl, rfl, step_of_refused hs.1 rfl⟩

/-- Settles O20: no meaning refuses as `runOver`, and under the invariant `pc` is at most the length. -/
theorem runOverExactlyAtTheEnd : Obligations.RunOverExactlyAtTheEnd := by
  intro s hinv hs
  refine ⟨fun h => ⟨le_antisymm hinv.pc (fetch_eq_runOver ?_), hs⟩, fun h => ?_⟩
  · cases hfetch : fetch s with
    | ok i => exact absurd (step_of_fetch_ok hs hfetch ▸ h) (exec_ne_runOver i s)
    | error why =>
      rw [step_of_fetch_error hs hfetch] at h
      cases h
      rfl
  · exact step_of_fetch_error hs (fetch_of_no_record h.1.ge)

/-! ## Outcomes of the eleven operations (R73, R74) -/

/-- What an operation returns (R84, R101). -/
def retOf (op : SampleOp) : Ret :=
  if op = .lod then retLod else retData

theorem exec_eq_next_iff :
    exec (Instr.of op f) s = .next t ↔
      WellFormed s.decls (Instr.of op f) ∧ ∃ req, gather op f s = .ok req ∧ t = commit (retOf op) f s req := by
  rw [exec_of]
  exact sampleStep_eq_next

theorem exec_eq_refused {why : Refusal} :
    exec (Instr.of op f) s = .refused why ↔
      ∃ r, firstIllFormed s.decls (Instr.of op f) = some r ∧ why = .illFormed r := by
  rw [exec_of]
  exact sampleStep_eq_refused

/-- A ready instruction gathers its request and commits its results. -/
theorem exec_of_ready (h : Ready op f s) :
    ∃ req, gather op f s = .ok req ∧ exec (Instr.of op f) s = .next (commit (retOf op) f s req) := by
  obtain ⟨hwf, req, hg⟩ := ready_iff_gather.1 h
  exact ⟨req, hg, exec_eq_next_iff.2 ⟨hwf, req, hg, rfl⟩⟩

/-- Settles O14: the common step asks for the first failing check before anything else. -/
theorem illFormedInstructionsRefused : Obligations.IllFormedInstructionsRefused := by
  intro i s reason h
  rw [← Instr.of_op_fields i] at h ⊢
  exact exec_eq_refused.2 ⟨reason, h, rfl⟩

theorem exists_next_iff_ready : (∃ t, exec (Instr.of op f) s = .next t) ↔ Ready op f s := by
  simp only [exec_eq_next_iff, ready_iff_gather]
  constructor
  · rintro ⟨_, hwf, req, hg, -⟩
    exact ⟨hwf, req, hg⟩
  · rintro ⟨hwf, req, hg⟩
    exact ⟨_, hwf, req, hg, rfl⟩

/-- Settles O21: the common step completes exactly when the request can be gathered. -/
theorem completesExactlyWhenReady : Obligations.CompletesExactlyWhenReady :=
  fun _ _ _ => exists_next_iff_ready

/-- Settles O33: a well-formed instruction either gathers its request, and is ready, or faults. -/
theorem wellFormedAndNotReadyFaults : Obligations.WellFormedAndNotReadyFaults := by
  intro op f s hwf hnot
  cases hg : gather op f s with
  | ok req => exact absurd (ready_iff_gather.2 ⟨hwf, req, hg⟩) hnot
  | error reason => exact ⟨reason, exec_eq_fault.2 ⟨hwf, hg⟩⟩

/-! ## The frame (R27, R89) -/

/-- Only `Dst`'s variable, inside the writeback, is written. -/
theorem commit_frame (ret : Ret) (f : Fields) (s : State) (req : SampleReq) : Frame f s (commit ret f s req) where
  cfg := rfl
  program := rfl
  smp := rfl
  srf := rfl
  prd := rfl
  em := rfl
  faulted := rfl
  refused := rfl
  types := writeVar_types _ _ _
  sizes := writeVar_sizes _ _ _
  bytes := fun id a h => commit_byteAt_unwritten fun hid c hc ha => by
    have := writebackCells_inside hc
    exact h ⟨hid, by omega, by omega⟩

/-- Settles O26: a next state is a committed one. -/
theorem instructionFrame : Obligations.InstructionFrame := by
  intro op f s t h
  obtain ⟨ret, req, -, -, rfl⟩ := exec_eq_next h
  exact ⟨commit_frame ret f s req, rfl⟩

/-- Settles O27: a write puts a value, and every other byte is left alone. -/
theorem stepsNeverUnwrite : Obligations.StepsNeverUnwrite := by
  intro s t id a hstep hbyte
  obtain ⟨-, -, op, f, hexec⟩ := step_eq_next hstep
  obtain ⟨ret, req, -, -, rfl⟩ := exec_eq_next hexec
  exact commit_isSome_byteAt hbyte

/-- Settles O52, by induction on the number of steps, each with the frame of its instruction. -/
theorem runsAreStraightLine : Obligations.RunsAreStraightLine := by
  intro k
  induction k with
  | zero =>
    intro s t h
    cases h
    exact ⟨rfl, rfl, rfl, rfl, rfl, rfl, rfl, rfl, rfl⟩
  | succ k ih =>
    intro s t h
    obtain ⟨s', hstep, hrun⟩ := run_succ_eq_next h
    obtain ⟨-, -, op, f, hexec⟩ := step_eq_next hstep
    obtain ⟨hframe, hpc'⟩ := instructionFrame op f s s' hexec
    obtain ⟨hpc, hcfg, hprogram, hsmp, hsrf, hprd, hem, htypes, hsizes⟩ := ih s' t hrun
    exact ⟨by omega, hcfg.trans hframe.cfg, hprogram.trans hframe.program, hsmp.trans hframe.smp,
      hsrf.trans hframe.srf, hprd.trans hframe.prd, hem.trans hframe.em, htypes.trans hframe.types,
      hsizes.trans hframe.sizes⟩

end Sys2Proof.Machine

namespace Sys2Proof.Machine

variable {op : SampleOp} {f : Fields} {s t : State} {req : SampleReq} {ret : Ret}

/-! ## The layout of `Dst` (R83, R86) -/

/-- Settles O45, on the sixteen values of the channel mask. -/
theorem blocksCountEnabledChannels : Obligations.BlocksCountEnabledChannels := by
  intro f
  have hmask : ∀ v : BitVec 4,
      (∀ c ∈ Channel.all, v.getLsbD c.bit = true →
        (Channel.all.filter fun c => v.getLsbD c.bit)[popcountBelow v c.bit]? = some c) ∧
      popcountBelow v 4 = (Channel.all.filter fun c => v.getLsbD c.bit).length := by decide
  exact ⟨fun c => (hmask f.channels).1 c (by cases c <;> decide), (hmask f.channels).2⟩

/-- Every block number is that of an enabled channel. -/
theorem exists_channel_of_blockNumber (f : Fields) {q : Nat} (hq : q < numBlocks f) :
    ∃ c, f.enables c = true ∧ blockNumber f c = q := by
  have hmask : ∀ v : BitVec 4, ∀ q < popcountBelow v 4,
      ∃ c ∈ Channel.all, v.getLsbD c.bit = true ∧ popcountBelow v c.bit = q := by decide
  obtain ⟨c, -, hc⟩ := hmask f.channels q hq
  exact ⟨c, hc⟩

theorem channel_bit_injective : Function.Injective Channel.bit := by
  intro c d h
  revert h
  cases c <;> cases d <;> decide

/-- The blocks of two enabled channels do not meet: the one with the lower bit ends first. -/
theorem blocks_apart (s : State) {c d : Channel} (hc : f.enables c = true) (hd : f.enables d = true)
    (hne : c ≠ d) :
    blockStart f s c + stride f s ≤ blockStart f s d ∨ blockStart f s d + stride f s ≤ blockStart f s c :=
  (Nat.lt_or_gt_of_ne (channel_bit_injective.ne hne)).imp (blockStart_add_stride_le s hc)
    (blockStart_add_stride_le s hd)

/-- Settles O46: the stride is a multiple of `GRF_BYTES` by its definition, and blocks follow one another. -/
theorem blocksDoNotMeet : Obligations.BlocksDoNotMeet :=
  fun f s => ⟨⟨_, Nat.mul_comm _ _⟩, elements_le_stride f s, stride_lt f s, fun _ hc =>
    ⟨blockStart_add_stride_le_nullStart s hc, fun _ hd hne => blocks_apart s hc hd hne⟩⟩

/-- Settles O47, R10's sizes as `elemSize` has them. -/
theorem elementSizes : Obligations.ElementSizes := rfl

/-- Settles O48, row by row. -/
theorem coordinateTable : Obligations.CoordinateTable := by
  unfold Obligations.CoordinateTable
  decide

/-- Settles O4: `paramNames` is the table of R60. -/
theorem parameterTable : Obligations.ParameterTable :=
  ⟨rfl, rfl, rfl, rfl, rfl, rfl, rfl, rfl, rfl, rfl, rfl⟩

/-! ## What is left in `Dst` after a step (R83 to R86) -/

/-- Every byte of the null mask register is written: its dword, and then draws. -/
theorem exists_mem_nullCells {en : BitVec 16} {null : Nat → Bool} (hpnm : f.pnm = true) {k : Nat}
    (hk : k < s.cfg.grfBytes) : ∃ b, (nullStart f s + k, b) ∈ nullCells f s en null := by
  by_cases hdword : k < 4
  · exact ⟨_, mem_nullCells.2 ⟨hpnm, .inl ⟨k, hdword, rfl⟩⟩⟩
  · obtain ⟨j, rfl⟩ := Nat.exists_eq_add_of_le (Nat.le_of_not_lt hdword)
    rw [← Nat.add_assoc]
    exact ⟨_, mem_nullCells.2 ⟨hpnm, .inr ⟨j, by omega, rfl⟩⟩⟩

/-- The undefined remainder of a channel's block is drawn. -/
theorem exists_mem_channelCells_remainder {en : BitVec 16} {val : Channel → Nat → Elem} {c : Channel}
    (hc : f.enables c = true) {k : Nat} (hk : f.lanes * dstSize f s ≤ k) (hlt : k < stride f s) :
    ∃ b, (blockStart f s c + k, b) ∈ channelCells f s en val c := by
  obtain ⟨j, rfl⟩ := Nat.exists_eq_add_of_le hk
  rw [← Nat.add_assoc]
  exact ⟨_, mem_channelCells.2 ⟨hc, .inr ⟨j, by omega, rfl⟩⟩⟩

/-- Every byte of an enabled channel's block is written, but those of the elements of disabled pixels. -/
theorem exists_mem_channelCells {en : BitVec 16} {val : Channel → Nat → Elem} {c : Channel}
    (hc : f.enables c = true) {k : Nat} (hlt : k < stride f s)
    (hdisabled : ∀ i < f.lanes, en.getLsbD i = false → ∀ j < dstSize f s, k ≠ i * dstSize f s + j) :
    ∃ b, (blockStart f s c + k, b) ∈ channelCells f s en val c := by
  by_cases hk : f.lanes * dstSize f s ≤ k
  · exact exists_mem_channelCells_remainder hc hk hlt
  · have hpos : 0 < dstSize f s := Nat.pos_of_ne_zero fun h0 => by
      rw [h0] at hk
      omega
    have hi : k / dstSize f s < f.lanes := Nat.div_lt_of_lt_mul (by rw [Nat.mul_comm]; omega)
    have hj : k % dstSize f s < dstSize f s := Nat.mod_lt k hpos
    have hsplit : k = k / dstSize f s * dstSize f s + k % dstSize f s := (Nat.div_add_mod' k _).symm
    have hen : en.getLsbD (k / dstSize f s) = true := by
      cases hen : en.getLsbD (k / dstSize f s) with
      | true => rfl
      | false => exact absurd hsplit (hdisabled _ hi hen _ hj)
    have hmem := (mem_channelCells (ret := val)).2 ⟨hc, .inl ⟨_, hi, hen, _, hj, rfl⟩⟩
    rw [Nat.add_assoc, ← hsplit] at hmem
    exact ⟨_, hmem⟩

section Written

variable (ret) (hwf : WellFormed s.decls (Instr.of op f)) (hg : gather op f s = .ok req)
include hwf hg

/-- A byte of the writeback holds what was written. -/
theorem commit_dstByte {k : Nat} {b : Byte} (h : (k, b) ∈ writebackCells ret f s req) :
    (commit ret f s req).dstByte f k = some b := by
  obtain ⟨v, hv, -⟩ := dst_var hwf hg
  exact commit_dstByte_written hv h

theorem commit_returned (cs : List Channel) :
    Returned f s (commit ret f s req) req.en cs (ret (sampled f s req) s.draws) :=
  fun c _ hc i hi hen k hk => commit_dstByte ret hwf hg <|
    mem_writebackCells.2 (.inl ⟨c, mem_channelCells.2 ⟨hc, .inl ⟨i, hi, hen, k, hk, rfl⟩⟩⟩)

theorem commit_nullMaskReturned :
    NullMaskReturned f s (commit ret f s req) req.en (sampled f s req).null := by
  have hlanes : f.lanes ≤ 32 := by rcases hwf.lanes with h | h <;> omega
  refine fun hpnm => ⟨_, fun k hk => commit_dstByte ret hwf hg ?_, fun i hi hen =>
    nullDWord_getLsbD hlanes _ (Config.drawDWord s.draws) hi hen⟩
  exact mem_writebackCells.2 (.inr (mem_nullCells.2 ⟨hpnm, .inl ⟨k, hk, rfl⟩⟩))

theorem commit_remainder {c : Channel} (hc : f.enables c = true) {k : Nat} (hk : f.lanes * dstSize f s ≤ k)
    (hlt : k < stride f s) : ((commit ret f s req).dstByte f (blockStart f s c + k)).isSome = true := by
  obtain ⟨b, hb⟩ := exists_mem_channelCells_remainder hc hk hlt
  rw [commit_dstByte ret hwf hg (mem_writebackCells.2 (.inl ⟨c, hb⟩))]
  rfl

theorem commit_nullRegister (hpnm : f.pnm = true) {k : Nat} (hk : k < s.cfg.grfBytes) :
    ((commit ret f s req).dstByte f (nullStart f s + k)).isSome = true := by
  obtain ⟨b, hb⟩ := exists_mem_nullCells hpnm hk
  rw [commit_dstByte ret hwf hg (mem_writebackCells.2 (.inr hb))]
  rfl

end Written

/-- No byte of a disabled pixel's element is written: not as an element of the same channel, not in the
remainder, not in another block, and not in the null mask register. -/
theorem writebackCells_ne_disabled {c : Channel} (hc : f.enables c = true) {i : Nat} (hi : i < f.lanes)
    (hen : req.en.getLsbD i = false) {k : Nat} (hk : k < dstSize f s) {x : Host.Cell}
    (hx : x ∈ writebackCells ret f s req) : x.1 ≠ blockStart f s c + i * dstSize f s + k := by
  have hin := element_le (sd := dstSize f s) hi
  have hfit := elements_le_stride f s
  rcases mem_writebackCells.1 hx with ⟨d, hd⟩ | hnull
  · obtain ⟨hdon, hcell⟩ := mem_channelCells.1 hd
    by_cases hcd : d = c
    · subst hcd
      rcases hcell with ⟨j, hj, hjen, l, hl, rfl⟩ | ⟨l, hl, rfl⟩
      · have hij : i ≠ j := by
          rintro rfl
          simp [hen] at hjen
        rcases Nat.lt_or_gt_of_ne hij with h | h
        all_goals
          have := element_le (sd := dstSize f s) h
          simp only
          omega
      · simp only
        omega
    · have hblock := channelCells_inside hd
      have := blocks_apart s hdon hc hcd
      omega
  · have hnull := nullCells_inside hnull
    have := blockStart_add_stride_le_nullStart s hc
    omega

theorem Returned.congr {en : BitVec 16} {cs : List Channel} {val val' : Channel → Nat → Elem}
    (h : Returned f s t en cs val) (hval : ∀ c ∈ cs, ∀ i, val c i = val' c i) : Returned f s t en cs val' :=
  fun c hcs hc i hi hen k hk => hval c hcs i ▸ h c hcs hc i hi hen k hk

theorem retOf_of_ne_lod (h : op ≠ .lod) : retOf op = retData := if_neg h

/-- Settles O22: the operations but `LOD` return the sampled data. -/
theorem sampleOperationsReturnData : Obligations.SampleOperationsReturnData := by
  intro op f s hop hready
  obtain ⟨req, hg, hexec⟩ := exec_of_ready hready
  have hwf := hready.wellFormed
  rw [retOf_of_ne_lod hop] at hexec
  exact ⟨req, sampled f s req, _, gather_isRequest hwf hg, sampled_isSampleOf hwf, hexec, rfl,
    commit_returned retData hwf hg _, commit_nullMaskReturned retData hwf hg⟩

/-- `LOD` returns the sampled data in R and G. -/
theorem retLod_eq_data {c : Channel} (hc : c ∈ [Channel.R, .G]) (res : SampleRes) (stamp i : Nat) :
    retLod res stamp c i = res.data c i := by
  rcases List.mem_pair.1 hc with rfl | rfl <;> rfl

/-- Settles O23: `LOD` returns the sampled data in R and G, and draws in B and A. -/
theorem lodReturnsLevels : Obligations.LodReturnsLevels := by
  intro f s hready
  obtain ⟨req, hg, hexec⟩ := exec_of_ready hready
  have hwf := hready.wellFormed
  exact ⟨req, sampled f s req, retLod (sampled f s req) s.draws, _, gather_isRequest hwf hg,
    sampled_isSampleOf hwf, hexec, rfl,
    (commit_returned retLod hwf hg _).congr fun _ hc i => retLod_eq_data hc _ _ i,
    commit_returned retLod hwf hg _, commit_nullMaskReturned retLod hwf hg⟩

/-- Settles O24: no cell of the writeback is a byte of a disabled pixel's element. -/
theorem disabledPixelsKeepTheirElements : Obligations.DisabledPixelsKeepTheirElements := by
  intro op f s hready
  obtain ⟨req, hg, hexec⟩ := exec_of_ready hready
  refine ⟨req, _, gather_isRequest hready.wellFormed hg, hexec, fun c hc i hi hen k hk => ?_⟩
  refine commit_byteAt_unwritten fun _ x hx heq => ?_
  exact writebackCells_ne_disabled hc hi hen hk hx (Nat.add_left_cancel heq).symm

/-- Settles O25: the remainders and the null mask register are written, whatever the enabled pixels. -/
theorem undefinedRemaindersHoldValues : Obligations.UndefinedRemaindersHoldValues := by
  intro op f s hready
  obtain ⟨req, hg, hexec⟩ := exec_of_ready hready
  have hwf := hready.wellFormed
  exact ⟨_, hexec, fun c hc k hk hlt => commit_remainder (retOf op) hwf hg hc hk hlt,
    fun hpnm k hk => commit_nullRegister (retOf op) hwf hg hpnm hk⟩

/-- The skipped positions of a request are zeros. -/
theorem IsRequest.params_drop (h : IsRequest op f s req) :
    req.params.drop f.params.length =
      ((paramNames op).drop f.params.length).map (fun name => (name, List.replicate f.lanes 0)) := by
  refine List.ext_getElem? fun k => ?_
  rw [← h.names, List.getElem?_map, List.getElem?_drop, List.getElem?_drop, List.getElem?_map]
  cases hk : req.params[f.params.length + k]? with
  | none => rfl
  | some entry =>
    obtain ⟨name, es⟩ := entry
    rw [h.skipped _ name es (Nat.le_add_right _ _) hk]
    rfl

/-- Of every operation the channels of O29 return the sampled data. -/
theorem retOf_eq_data {c : Channel} (hc : c ∈ if op = .lod then [Channel.R, .G] else [.R, .G, .B, .A])
    (res : SampleRes) (stamp i : Nat) : retOf op res stamp c i = res.data c i := by
  by_cases h : op = .lod
  · rw [if_pos h] at hc
    rw [retOf, if_pos h]
    exact retLod_eq_data hc res stamp i
  · rw [retOf_of_ne_lod h]
    rfl

/-- Settles O29: the request that was gathered is the one of R79, and its sample is returned. -/
theorem skippedParametersAreZero : Obligations.SkippedParametersAreZero := by
  intro op f s t h
  obtain ⟨hwf, req, hg, rfl⟩ := exec_eq_next_iff.1 h
  exact ⟨req, sampled f s req, hg, (gather_isRequest hwf hg).params_drop, sampled_isSampleOf hwf,
    (commit_returned (retOf op) hwf hg _).congr fun _ hc i => retOf_eq_data hc _ _ i⟩

/-! ## Requests (R75 to R81) -/

/-- The entries of a request are fixed: the names by the operation, and the elements by storage where a
parameter is supplied and by R79 where it is skipped. -/
theorem IsRequest.params_eq {req' : SampleReq} (h : IsRequest op f s req) (h' : IsRequest op f s req') :
    req.params = req'.params := by
  refine List.ext_getElem? fun k => ?_
  have hnames : (req.params[k]?).map Prod.fst = (req'.params[k]?).map Prod.fst := by
    rw [← List.getElem?_map, ← List.getElem?_map, h.names, h'.names]
  cases hp : f.params[k]? with
  | some p =>
    obtain ⟨name, es, hk, hlen, hes⟩ := h.supplied k p hp
    obtain ⟨name', es', hk', hlen', hes'⟩ := h'.supplied k p hp
    rw [hk, hk'] at hnames ⊢
    obtain rfl : name = name' := Option.some.inj hnames
    have : es = es' := List.ext_getElem? fun i => by
      by_cases hi : i < f.lanes
      · rw [hes i hi, hes' i hi]
      · rw [List.getElem?_eq_none (by omega), List.getElem?_eq_none (by omega)]
    rw [this]
  | none =>
    have hskip : f.params.length ≤ k := List.getElem?_eq_none_iff.1 hp
    cases hk : req.params[k]? with
    | none =>
      rw [hk] at hnames
      exact (Option.map_eq_none_iff.1 hnames.symm).symm
    | some entry =>
      rw [hk] at hnames
      obtain ⟨⟨name', es'⟩, hk', hname⟩ := Option.map_eq_some_iff.1 hnames.symm
      obtain ⟨name, es⟩ := entry
      cases hname
      rw [hk', h.skipped k _ es hskip hk, h'.skipped k _ es' hskip hk']

/-- Settles O28, component by component. -/
theorem requestIsDetermined : Obligations.RequestIsDetermined := by
  intro op f s req req' _ h h'
  have hparams := h.params_eq h'
  obtain ⟨pm, hpm, hen⟩ := h.en
  obtain ⟨pm', hpm', hen'⟩ := h'.en
  cases hpm.symm.trans hpm'
  obtain ⟨a, ha, hu, hv, hr⟩ := h.offsets
  obtain ⟨a', ha', hu', hv', hr'⟩ := h'.offsets
  cases ha.symm.trans ha'
  obtain ⟨srf, hsrf, htype⟩ := h.surface
  obtain ⟨srf', hsrf', htype'⟩ := h'.surface
  cases hsrf.symm.trans hsrf'
  have hop := h.operation.trans h'.operation.symm
  have hcps := h.cps.trans h'.cps.symm
  have hnonuni := h.nonuni.trans h'.nonuni.symm
  have hpnm := h.pnm.trans h'.pnm.symm
  have hn := h.n.trans h'.n.symm
  have hchannels := h.channels.trans h'.channels.symm
  have htp := h.tp.trans h'.tp.symm
  have htd := h.td.trans h'.td.symm
  cases req
  cases req'
  simp only [SampleReq.mk.injEq]
  exact ⟨hop, hcps, hnonuni, hpnm, hn, hen.trans hen'.symm, hchannels, hu.trans hu'.symm, hv.trans hv'.symm,
    hr.trans hr'.symm, htype.trans htype'.symm, htp, htd, hparams⟩

/-- Settles O30: the enabled pixels are a part of the execution mask's lanes. -/
theorem enabledPixelsAreLanes : Obligations.EnabledPixelsAreLanes := by
  intro op f s req hwf h i hi
  obtain ⟨pm, -, hen⟩ := h.en
  have hlanes : f.lanes ≤ 16 := by rcases hwf.lanes with h | h <;> omega
  rw [hen, BitVec.getLsbD_and, laneEnable_past_lanes hlanes hi, Bool.false_and]

/-! ## The footprint (R27) -/

namespace SameInputs

theorem enabledPixels_eq (h : SameInputs f s t) : enabledPixels f t = enabledPixels f s := by
  unfold enabledPixels
  rw [h.cfg, h.prd, h.em]

theorem readOffsets_eq (h : SameInputs f s t) : readOffsets f t = readOffsets f s := by
  unfold readOffsets
  rw [h.readScalar16_eq]

theorem surfaceType_eq (h : SameInputs f s t) : surfaceType f t = surfaceType f s := by
  unfold surfaceType
  rw [h.srf]

/-- Each part of the gathering is the same. -/
theorem gather_eq (h : SameInputs f s t) : gather op f t = gather op f s := by
  unfold gather
  rw [h.enabledPixels_eq, h.readOffsets_eq, h.paramType_eq, readParams_congr fun p hp => h.readParam_eq hp,
    h.checkWriteback_eq, h.surfaceType_eq, h.dstType_eq]

theorem ready (h : SameInputs f s t) (hready : Ready op f s) : Ready op f t := by
  obtain ⟨hwf, req, hg⟩ := ready_iff_gather.1 hready
  exact ready_iff_gather.2 ⟨h.firstIllFormed_eq.trans hwf, req, h.gather_eq.trans hg⟩

theorem isRequest (h : SameInputs f s t) (hreq : IsRequest op f s req) : IsRequest op f t req where
  operation := hreq.operation
  cps := hreq.cps
  nonuni := hreq.nonuni
  pnm := hreq.pnm
  n := hreq.n
  channels := hreq.channels
  en := by
    rw [h.cfg, h.prd, h.em]
    exact hreq.en
  offsets := by
    rw [h.readScalar16_eq]
    exact hreq.offsets
  surface := by
    obtain ⟨srf, hsrf, htype⟩ := hreq.surface
    have hmap := h.srf
    rw [hsrf] at hmap
    obtain ⟨srf', hsrf', htype'⟩ := Option.map_eq_some_iff.1 hmap
    exact ⟨srf', hsrf', htype.trans htype'.symm⟩
  tp := hreq.tp.trans h.paramType_eq.symm
  td := hreq.td.trans h.dstType_eq.symm
  names := hreq.names
  supplied := fun k p hp => by
    obtain ⟨name, es, hk, hlen, hes⟩ := hreq.supplied k p hp
    refine ⟨name, es, hk, hlen, fun i hi => ?_⟩
    rw [h.paramType_eq, h.elemAt_eq (List.mem_of_getElem? hp) hi]
    exact hes i hi
  skipped := hreq.skipped

theorem exec_fault (h : SameInputs f s t) {reason : Fault} (he : exec (Instr.of op f) s = .fault reason) :
    exec (Instr.of op f) t = .fault reason := by
  obtain ⟨hwf, hg⟩ := exec_eq_fault.1 he
  exact exec_eq_fault.2 ⟨h.firstIllFormed_eq.trans hwf, h.gather_eq.trans hg⟩

theorem exec_refused (h : SameInputs f s t) {why : Refusal} (he : exec (Instr.of op f) s = .refused why) :
    exec (Instr.of op f) t = .refused why := by
  obtain ⟨r, hr, hwhy⟩ := exec_eq_refused.1 he
  exact exec_eq_refused.2 ⟨r, h.firstIllFormed_eq.trans hr, hwhy⟩

end SameInputs

/-- Settles O31: the checks and the gathering are the same, and decide the outcome. -/
theorem requestDependsOnFootprint : Obligations.RequestDependsOnFootprint :=
  fun _ _ _ _ h => ⟨h.ready, fun _ => h.isRequest, h.gather_eq, fun _ => h.exec_fault, fun _ => h.exec_refused,
    fun hnext => exists_next_iff_ready.2 (h.ready (exists_next_iff_ready.1 hnext))⟩

/-- With the contents and the draws the same too, the same bytes are written. -/
theorem SameInputs.writebackCells_eq (h : SameInputs f s t)
    (hsrf : t.srf[f.surface.toNat]? = s.srf[f.surface.toNat]?)
    (hsmp : t.smp[f.sampler.toNat]? = s.smp[f.sampler.toNat]?) (hdraws : t.draws = s.draws) :
    writebackCells ret f t req = writebackCells ret f s req := by
  have hsampled : sampled f t req = sampled f s req := by
    simp only [sampled, surfaceContents, samplerContents, hsrf, hsmp, hdraws]
  have hchannel : channelCells f t req.en (ret (sampled f s req) s.draws) =
      channelCells f s req.en (ret (sampled f s req) s.draws) := by
    funext c
    simp only [channelCells, blockStart, h.stride_eq, h.dstSize_eq, hdraws]
  have hnull : nullCells f t = nullCells f s := by
    funext en null
    simp only [nullCells, nullStart, h.stride_eq, h.cfg, hdraws]
  rw [writebackCells, writebackCells, hsampled, hdraws, hchannel, hnull]

/-- Every byte of the writeback is written, but those of the elements of disabled pixels. -/
theorem exists_mem_writebackCells (ret : Ret) {k : Nat} (hk : k < writebackBytes f s)
    (hdisabled : ∀ c, f.enables c = true → ∀ i < f.lanes, req.en.getLsbD i = false → ∀ j < dstSize f s,
      k ≠ blockStart f s c + i * dstSize f s + j) : ∃ b, (k, b) ∈ writebackCells ret f s req := by
  unfold writebackBytes at hk
  by_cases hnull : nullStart f s ≤ k
  · obtain ⟨j, rfl⟩ := Nat.exists_eq_add_of_le hnull
    unfold nullStart at hk
    split at hk
    case isFalse => omega
    next hpnm =>
    obtain ⟨b, hb⟩ := exists_mem_nullCells hpnm (Nat.lt_of_add_lt_add_left hk)
    exact ⟨b, mem_writebackCells.2 (.inr hb)⟩
  · unfold nullStart at hnull
    have hpos : 0 < stride f s := Nat.pos_of_ne_zero fun h0 => by
      rw [h0] at hnull
      omega
    have hq : k / stride f s < numBlocks f := Nat.div_lt_of_lt_mul (by rw [Nat.mul_comm]; omega)
    obtain ⟨c, hc, hblock⟩ := exists_channel_of_blockNumber f hq
    have hsplit : blockStart f s c + k % stride f s = k := by
      rw [blockStart, hblock, Nat.div_add_mod']
    obtain ⟨b, hb⟩ := exists_mem_channelCells hc (Nat.mod_lt k hpos) fun i hi hen j hj heq =>
      hdisabled c hc i hi hen j hj (by omega)
    exact ⟨b, mem_writebackCells.2 (.inl ⟨c, hsplit ▸ hb⟩)⟩

/-- Settles O56: the bytes that are written are the same cells, committed in either state. -/
theorem resultsDependOnFootprint : Obligations.ResultsDependOnFootprint := by
  intro op f s t s' h hsrf hsmp hdraws hexec
  obtain ⟨hwf, req, hg, rfl⟩ := exec_eq_next_iff.1 hexec
  have hwf' := h.firstIllFormed_eq.trans hwf
  have hg' := (h.gather_eq (op := op)).trans hg
  refine ⟨req, _, gather_isRequest hwf hg, exec_eq_next_iff.2 ⟨hwf', req, hg', rfl⟩, fun k hk hdisabled => ?_⟩
  obtain ⟨b, hb⟩ := exists_mem_writebackCells (retOf op) hk hdisabled
  rw [commit_dstByte _ hwf hg hb]
  rw [← h.writebackCells_eq hsrf hsmp hdraws] at hb
  exact commit_dstByte _ hwf' hg' hb

end Sys2Proof.Machine

namespace Sys2Proof.Machine

variable {op : SampleOp} {f : Fields} {s : State} {reason : Fault}

/-! ## Scalar operands and offsets (R19, R76) -/

theorem readScalar16_of_bytes (hr : s.cfg.scalarReading = .recommended) {id : Nat} {low high : Byte}
    (h0 : s.byteAt id 0 = some low) (h1 : s.byteAt id 1 = some high) :
    readScalar16 s (.var id) = .ok ((elemOfBytes [low, high]).setWidth 16) := by
  rw [readScalar16_var hr, bytesAt_two h0 h1]
  rfl

theorem readScalar16_of_unwritten (hr : s.cfg.scalarReading = .recommended) {id k : Nat} (hk : k < 2)
    (h : s.byteAt id k = none) : readScalar16 s (.var id) = .error .unwrittenRead := by
  rw [readScalar16_var hr, bytesAt_two_eq_none hk h]
  rfl

/-- Settles O55, for each kind of operand that R19 describes. -/
theorem scalarOperandsRead : Obligations.ScalarOperandsRead :=
  fun _ => ⟨fun hr => ⟨readScalar16_imm hr,
      fun _ low high h0 h1 => ⟨_, readScalar16_of_bytes hr h0 h1, toNat_of_bytes low high⟩,
      fun _ _ hk h => readScalar16_of_unwritten hr hk h⟩,
    fun _ _ h => readScalar16_eq_error h⟩

/-- The high nibble of a 16-bit value is not 0 exactly from `0x1000` on. -/
theorem reservedBits_ne_zero (a : BitVec 16) : reservedBits a ≠ 0 ↔ 0x1000 ≤ a.toNat := by
  rw [Ne, reservedBits_eq_zero, Nat.not_lt]

/-- An operand of which a value is read: an immediate, two bytes of a variable, or an open value. -/
theorem readScalar16_eq_ok {opnd : ScalarOperand} {a : BitVec 16} (h : readScalar16 s opnd = .ok a) :
    opnd = .imm a ∨
      (∃ id low high, opnd = .var id ∧ s.byteAt id 0 = some low ∧ s.byteAt id 1 = some high ∧
        a = (elemOfBytes [low, high]).setWidth 16) ∨
      (ScalarIsOpen s opnd ∧ openScalar16 s opnd = some a) := by
  rcases scalar_cases s opnd with ho | ⟨hr, ⟨b, rfl⟩ | ⟨id, rfl⟩⟩
  · rw [readScalar16_open ho, orUnwritten_eq_ok] at h
    exact .inr (.inr ⟨ho, h⟩)
  · rw [readScalar16_imm hr] at h
    cases h
    exact .inl rfl
  · cases h0 : s.byteAt id 0 with
    | none =>
      rw [readScalar16_of_unwritten hr (by decide) h0] at h
      cases h
    | some low =>
      cases h1 : s.byteAt id 1 with
      | none =>
        rw [readScalar16_of_unwritten hr (by decide) h1] at h
        cases h
      | some high =>
        rw [readScalar16_of_bytes hr h0 h1] at h
        exact .inr (.inl ⟨id, low, high, rfl, h0, h1, (Except.ok.inj h).symm⟩)

/-- An operand that cannot be read: a variable with one of two bytes not written, or an open value that is
not there. -/
theorem readScalar16_error_cases {opnd : ScalarOperand} (h : readScalar16 s opnd = .error reason) :
    (∃ id, opnd = .var id ∧ (s.byteAt id 0 = none ∨ s.byteAt id 1 = none)) ∨
      (ScalarIsOpen s opnd ∧ openScalar16 s opnd = none) := by
  rcases scalar_cases s opnd with ho | ⟨hr, ⟨b, rfl⟩ | ⟨id, rfl⟩⟩
  · rw [readScalar16_open ho, orUnwritten_eq_error] at h
    exact .inr ⟨ho, h.1⟩
  · rw [readScalar16_imm hr] at h
    cases h
  · refine .inl ⟨id, rfl, ?_⟩
    by_contra hboth
    obtain ⟨h0, h1⟩ := not_or.1 hboth
    obtain ⟨low, h0⟩ := Option.ne_none_iff_exists'.1 h0
    obtain ⟨high, h1⟩ := Option.ne_none_iff_exists'.1 h1
    rw [readScalar16_of_bytes hr h0 h1] at h
    cases h

theorem readOffsets_of_error (h : readScalar16 s f.aoffimmi = .error reason) :
    readOffsets f s = .error reason := by
  rw [readOffsets, h]

theorem readOffsets_of_reserved {a : BitVec 16} (h : readScalar16 s f.aoffimmi = .ok a)
    (ha : reservedBits a ≠ 0) : readOffsets f s = .error .aoffimmiReservedBits := by
  simp only [readOffsets, h, if_neg ha]

theorem readOffsets_eq_error (h : readOffsets f s = .error reason) :
    readScalar16 s f.aoffimmi = .error reason ∨
      (reason = .aoffimmiReservedBits ∧ ∃ a, readScalar16 s f.aoffimmi = .ok a ∧ reservedBits a ≠ 0) := by
  cases hr : readScalar16 s f.aoffimmi with
  | error e =>
    cases (readOffsets_of_error hr).symm.trans h
    exact .inl rfl
  | ok a =>
    by_cases ha : reservedBits a = 0
    · simp only [readOffsets, hr, if_pos ha] at h
      cases h
    · rw [readOffsets_of_reserved hr ha] at h
      exact .inr ⟨(Except.error.inj h).symm, a, rfl, ha⟩

/-- Settles O44: the bounds of four bits in two's complement, and the two vectors. -/
theorem offsetsUnpack : Obligations.OffsetsUnpack := by
  refine ⟨fun a x hx => ?_, by decide, by decide⟩
  have hbounds (v : BitVec 4) : -8 ≤ sext4 v ∧ sext4 v ≤ 7 :=
    ⟨v.le_toInt, Int.le_of_lt_add_one v.toInt_lt⟩
  simp only [List.mem_cons, List.not_mem_nil, or_false] at hx
  rcases hx with rfl | rfl | rfl <;> exact hbounds _

/-! ## Parameters that cannot be read (R78) -/

theorem readParam_of_outside {size n : Nat} {p : RawOperand} (h : s.sizeOfVar p.id < p.off + n * size) :
    readParam s size n p = .error .outOfVariable :=
  if_neg (Nat.not_le_of_lt h)

theorem readParam_of_unwritten {size n : Nat} {p : RawOperand} (h : p.off + n * size ≤ s.sizeOfVar p.id)
    {k : Nat} (hk : k < n * size) (hbyte : s.byteAt p.id (p.off + k) = none) :
    readParam s size n p = .error .unwrittenRead := by
  cases hes : s.elemsAt p size 0 n with
  | none => rw [readParam, if_pos h, hes]
  | some es =>
    have := (readParam_ok_iff.1 ⟨es, readParam_eq_ok.2 ⟨h, hes⟩⟩).2 k hk
    rw [hbyte] at this
    cases this

/-- A parameter that cannot be read passes the end of its variable, or has a byte that holds no value. -/
theorem readParam_eq_error {size n : Nat} {p : RawOperand} (h : readParam s size n p = .error reason) :
    (reason = .outOfVariable ∧ s.sizeOfVar p.id < p.off + n * size) ∨
      (reason = .unwrittenRead ∧ ∃ k < n * size, s.byteAt p.id (p.off + k) = none) := by
  by_cases hin : p.off + n * size ≤ s.sizeOfVar p.id
  · by_cases hall : ∀ k < n * size, (s.byteAt p.id (p.off + k)).isSome = true
    · obtain ⟨es, hes⟩ := readParam_ok_iff.2 ⟨hin, hall⟩
      rw [hes] at h
      cases h
    · push Not at hall
      obtain ⟨k, hk, hbyte⟩ := hall
      rw [Ne, Option.not_isSome_iff_eq_none] at hbyte
      rw [readParam_of_unwritten hin hk hbyte] at h
      exact .inr ⟨(Except.error.inj h).symm, k, hk, hbyte⟩
  · have hout := Nat.lt_of_not_le hin
    rw [readParam_of_outside hout] at h
    exact .inl ⟨(Except.error.inj h).symm, hout⟩

/-! ## The faults of gathering, in the order of R73 -/

theorem gather_of_predicate_none (h : predEval s.cfg s.prd s.em f.pred f.emctrl f.lanes = none) :
    gather op f s = .error .unwrittenRead := by
  simp only [gather, enabledPixels, h]

theorem gather_eq_offsets_error (hp : (predEval s.cfg s.prd s.em f.pred f.emctrl f.lanes).isSome = true)
    (h : readOffsets f s = .error reason) : gather op f s = .error reason := by
  obtain ⟨en, hen⟩ := enabledPixels_ok_iff.2 hp
  simp only [gather, hen, h]

theorem gather_eq_bias_error (hp : (predEval s.cfg s.prd s.em f.pred f.emctrl f.lanes).isSome = true)
    (ho : OffsetsReady s f.aoffimmi) {params : List (ParamName × List Elem)}
    (h : readParams s (elemSize (paramType f s)) f.lanes (paramNames op) f.params = .ok params)
    (hb : ¬ biasOk (paramType f s) params = true) : gather op f s = .error .biasOutOfRange := by
  obtain ⟨en, hen⟩ := enabledPixels_ok_iff.2 hp
  obtain ⟨o, ho⟩ := readOffsets_ok_iff.2 ho
  simp only [gather, hen, ho, h, if_neg hb]

/-- The part that fails when gathering does. -/
theorem gather_eq_error (h : gather op f s = .error reason) :
    (reason = .unwrittenRead ∧ predEval s.cfg s.prd s.em f.pred f.emctrl f.lanes = none) ∨
      readOffsets f s = .error reason ∨
      readParams s (elemSize (paramType f s)) f.lanes (paramNames op) f.params = .error reason ∨
      (reason = .biasOutOfRange ∧ ∃ params,
        readParams s (elemSize (paramType f s)) f.lanes (paramNames op) f.params = .ok params ∧
          ¬ biasOk (paramType f s) params = true) ∨
      checkWriteback f s = .error reason := by
  cases hpred : predEval s.cfg s.prd s.em f.pred f.emctrl f.lanes with
  | none =>
    cases (gather_of_predicate_none hpred).symm.trans h
    exact .inl ⟨rfl, rfl⟩
  | some pm =>
    have hp := Option.isSome_iff_exists.2 ⟨pm, hpred⟩
    refine .inr ?_
    cases ho : readOffsets f s with
    | error e =>
      cases (gather_eq_offsets_error hp ho).symm.trans h
      exact .inl rfl
    | ok o =>
      have hready := readOffsets_ok_iff.1 ⟨o, ho⟩
      refine .inr ?_
      cases hps : readParams s (elemSize (paramType f s)) f.lanes (paramNames op) f.params with
      | error e =>
        cases (gather_eq_params_error hp hready hps).symm.trans h
        exact .inl rfl
      | ok params =>
        refine .inr ?_
        by_cases hb : biasOk (paramType f s) params = true
        · obtain ⟨en, hen⟩ := enabledPixels_ok_iff.2 hp
          simp only [gather, hen, ho, hps, if_pos hb] at h
          split at h
          next e hc =>
            cases h
            exact .inr hc
          next => cases h
        · cases (gather_eq_bias_error hp hready hps hb).symm.trans h
          exact .inl ⟨rfl, params, rfl, hb⟩

theorem checkWriteback_eq_error (h : checkWriteback f s = .error reason) :
    (reason = .outOfVariable ∧ s.sizeOfVar f.dst.id < f.dst.off + writebackBytes f s) ∨
      (reason = .dstParamOverlap ∧ s.cfg.allowDstParamOverlap = false ∧ dstMeetsRead f s = true) := by
  unfold checkWriteback at h
  split at h
  · split at h
    next hmeet =>
      rw [Bool.and_eq_true, Bool.not_eq_true'] at hmeet
      exact .inr ⟨(Except.error.inj h).symm, hmeet⟩
    next => cases h
  next hout => exact .inl ⟨(Except.error.inj h).symm, Nat.lt_of_not_le hout⟩

/-- A bias that is refused: some lane of a supplied bias is out of range. -/
theorem not_biasOk (hwf : WellFormed s.decls (Instr.of op f)) {params : List (ParamName × List Elem)}
    (h : readParams s (elemSize (paramType f s)) f.lanes (paramNames op) f.params = .ok params) :
    ¬ biasOk (paramType f s) params = true ↔
      ∃ p, (ParamName.bias, p) ∈ (paramNames op).zip f.params ∧
        ∃ i < f.lanes, ∃ e, s.elemAt p (elemSize (paramType f s)) i = some e ∧
          biasInRange (paramType f s) e = false := by
  rw [biasOk_iff ((paramType_f_or_hf hwf).imp id And.right) h]
  push Not
  simp only [Bool.not_eq_true]

theorem eq_of_bias_mem {p : RawOperand} (h : (ParamName.bias, p) ∈ (paramNames op).zip f.params) :
    op = .sampleB ∨ op = .sampleBC := by
  have hname := (List.of_mem_zip h).1
  revert hname
  cases op <;> decide

/-- Settles O32: each part of gathering that can fail, with what its failure says. -/
theorem faultsHaveTheirReasons : Obligations.FaultsHaveTheirReasons := by
  intro op f s reason h
  obtain ⟨hwf, hg⟩ := exec_eq_fault.1 h
  refine ⟨hwf, ?_⟩
  rcases gather_eq_error hg with ⟨rfl, hpred⟩ | ho | hps | ⟨rfl, params, hps, hb⟩ | hc
  · exact .inl hpred
  · rcases readOffsets_eq_error ho with hs | ⟨rfl, a, hs, ha⟩
    · cases readScalar16_eq_error hs
      exact .inr ((readScalar16_error_cases hs).imp id .inl)
    · rcases readScalar16_eq_ok hs with himm | ⟨id, low, high, hvar, -, hhigh, rfl⟩ | ⟨hopen, hvalue⟩
      · exact absurd ((reservedBits_eq_zero a).2 (aoffimmiOk_iff.1 hwf.aoffimmi a himm)) ha
      · rw [reservedBits_of_bytes] at ha
        exact .inl ⟨id, hvar, high, hhigh, ha⟩
      · exact .inr ⟨hopen, a, hvalue, (reservedBits_ne_zero a).1 ha⟩
  · obtain ⟨p, hp, hread⟩ := readParams_eq_error hps
    rcases readParam_eq_error hread with ⟨rfl, hout⟩ | ⟨rfl, hbyte⟩
    · exact .inl ⟨p, hp, hout⟩
    · exact .inr (.inr (.inr ⟨p, hp, hbyte⟩))
  · obtain ⟨p, hp, hlane⟩ := (not_biasOk hwf hps).1 hb
    exact ⟨eq_of_bias_mem hp, p, hp, hlane⟩
  · rcases checkWriteback_eq_error hc with ⟨rfl, hout⟩ | ⟨rfl, hallow, hmeet⟩
    · exact .inr hout
    · exact ⟨hallow, (dstMeetsRead_iff hwf).1 hmeet⟩

/-! ## When an instruction faults, and how (R107, R110) -/

section Faults

variable (hwf : WellFormed s.decls (Instr.of op f))
  (hp : (predEval s.cfg s.prd s.em f.pred f.emctrl f.lanes).isSome = true) (ho : OffsetsReady s f.aoffimmi)
include hwf hp ho

theorem exec_eq_params_error
    (h : readParams s (elemSize (paramType f s)) f.lanes (paramNames op) f.params = .error reason) :
    exec (Instr.of op f) s = .fault reason :=
  exec_eq_fault.2 ⟨hwf, gather_eq_params_error hp ho h⟩

/-- Of the supplied parameters the first that cannot be read gives the fault. -/
theorem exec_eq_param_error {before after : List RawOperand} {p : RawOperand}
    (hps : f.params = before ++ p :: after)
    (hbefore : ∀ q ∈ before, q.off + paramBytes f s ≤ s.sizeOfVar q.id ∧
      ∀ k < paramBytes f s, (s.byteAt q.id (q.off + k)).isSome = true)
    (h : readParam s (elemSize (paramType f s)) f.lanes p = .error reason) :
    exec (Instr.of op f) s = .fault reason := by
  refine exec_eq_params_error hwf hp ho ?_
  have hcount := hwf.count
  rw [hps] at hcount ⊢
  exact readParams_first_error hcount (fun q hq => readParam_ok_iff.2 (hbefore q hq)) h

end Faults

/-- Settles O34: everything is read, and the bias rule fails. -/
theorem biasOutOfRangeFaults : Obligations.BiasOutOfRangeFaults := by
  intro op f s p i e hwf hp ho hps hmem hi he hrange
  obtain ⟨params, hread⟩ := (readParams_ok_iff hwf.count).2 fun q hq => readParam_ok_iff.2 (hps q hq)
  exact exec_eq_fault.2 ⟨hwf, gather_eq_bias_error hp ho hread
    ((not_biasOk hwf hread).2 ⟨p, hmem, i, hi, e, he, hrange⟩)⟩

/-- Settles O35: some parameter cannot be read, and being inside its variable it is not written. -/
theorem unwrittenParameterFaults : Obligations.UnwrittenParameterFaults := by
  intro op f s p k hwf hp ho hinside hmem hk hbyte
  cases hread : readParams s (elemSize (paramType f s)) f.lanes (paramNames op) f.params with
  | ok params =>
    obtain ⟨es, hes⟩ := (readParams_ok_iff hwf.count).1 ⟨params, hread⟩ p hmem
    rw [readParam_of_unwritten (hinside p hmem) hk hbyte] at hes
    cases hes
  | error reason =>
    obtain ⟨q, hq, hqread⟩ := readParams_eq_error hread
    rcases readParam_eq_error hqread with ⟨-, hout⟩ | ⟨rfl, -⟩
    · exact absurd (hinside q hq) (Nat.not_le_of_lt hout)
    · exact exec_eq_params_error hwf hp ho hread

/-- Settles O36: a value is read, and its high nibble is not 0. -/
theorem reservedOffsetBitsFault : Obligations.ReservedOffsetBitsFault := by
  intro op f s hwf hp h
  have hread : ∃ a, readScalar16 s f.aoffimmi = .ok a ∧ reservedBits a ≠ 0 := by
    rcases h with ⟨hr, id, low, high, hvar, h0, h1, hhigh⟩ | ⟨hopen, a, ha, hle⟩
    · rw [hvar]
      exact ⟨_, readScalar16_of_bytes hr h0 h1, by rwa [reservedBits_of_bytes]⟩
    · exact ⟨a, by rw [readScalar16_open hopen, orUnwritten_eq_ok, ha], (reservedBits_ne_zero a).2 hle⟩
  obtain ⟨a, hok, ha⟩ := hread
  exact exec_eq_fault.2 ⟨hwf, gather_eq_offsets_error hp (readOffsets_of_reserved hok ha)⟩

/-- Settles O37: the writeback check fails at the length of `Dst`'s variable. -/
theorem smallDestinationFaults : Obligations.SmallDestinationFaults :=
  fun _ _ _ h hsmall => exec_eq_fault.2 ⟨h.wellFormed,
    gather_eq_writeback_error h (if_neg (Nat.not_le_of_lt hsmall))⟩

/-- Settles O38: the writeback fits, and the overlap test finds the byte. -/
theorem overlapFaults : Obligations.OverlapFaults := by
  intro op f s a h hfits hallow hwritten hkept
  have hmeet := (dstMeetsRead_iff h.wellFormed).2 ⟨a, hwritten, hkept⟩
  refine exec_eq_fault.2 ⟨h.wellFormed, gather_eq_writeback_error h ?_⟩
  rw [checkWriteback, if_pos hfits, hallow, hmeet]
  rfl

/-- Settles O39: the predicate is read first, then `Aoffimmi`, and both fail in the same way. -/
theorem unwrittenPredicateOrOffsetsFault : Obligations.UnwrittenPredicateOrOffsetsFault := by
  intro op f s hwf h
  refine exec_eq_fault.2 ⟨hwf, ?_⟩
  cases hpred : predEval s.cfg s.prd s.em f.pred f.emctrl f.lanes with
  | none => exact gather_of_predicate_none hpred
  | some pm =>
    refine gather_eq_offsets_error (Option.isSome_iff_exists.2 ⟨pm, hpred⟩) (readOffsets_of_error ?_)
    rcases h with hnone | ⟨hr, id, k, hvar, hk, hbyte⟩ | ⟨hopen, hvalue⟩
    · rw [hnone] at hpred
      cases hpred
    · rw [hvar]
      exact readScalar16_of_unwritten hr hk hbyte
    · rw [readScalar16_open hopen, orUnwritten_eq_error]
      exact ⟨hvalue, rfl⟩

/-- Settles O40: the extent of a parameter is tested before its bytes. -/
theorem firstUnreadableParameterFaults : Obligations.FirstUnreadableParameterFaults :=
  fun _ _ _ _ _ _ hwf hp ho hps hbefore =>
    ⟨fun hout => exec_eq_param_error hwf hp ho hps hbefore (readParam_of_outside hout),
      fun hin ⟨_, hk, hbyte⟩ => exec_eq_param_error hwf hp ho hps hbefore (readParam_of_unwritten hin hk hbyte)⟩

end Sys2Proof.Machine

namespace Sys2Proof.Machine

/-! ## The range of a bias as bit patterns (R80, R10) -/

/-- A number with exponent field `e + 1` and a fraction below `2 ^ m` is at most `2 ^ (k + m)` exactly when its
fields, read as one number, are at most those of `2 ^ (k + m)`. -/
theorem scaled_le_iff {m fraction : Nat} (hf : fraction < 2 ^ m) (e k : Nat) :
    (2 ^ m + fraction) * 2 ^ e ≤ 2 ^ (k + m) ↔ (e + 1) * 2 ^ m + fraction ≤ (k + 1) * 2 ^ m := by
  rw [Nat.pow_add, Nat.mul_comm (2 ^ k)]
  rcases Nat.lt_trichotomy e k with h | rfl | h
  · refine iff_of_true ?_ ?_
    · calc (2 ^ m + fraction) * 2 ^ e ≤ (2 ^ m + 2 ^ m) * 2 ^ e := Nat.mul_le_mul_right _ (by omega)
        _ = 2 ^ m * 2 ^ (e + 1) := by ring
        _ ≤ 2 ^ m * 2 ^ k := Nat.mul_le_mul_left _ (Nat.pow_le_pow_right (by decide) h)
    · calc (e + 1) * 2 ^ m + fraction ≤ (e + 1) * 2 ^ m + 2 ^ m := Nat.add_le_add_left hf.le _
        _ = (e + 1 + 1) * 2 ^ m := (Nat.succ_mul _ _).symm
        _ ≤ (k + 1) * 2 ^ m := Nat.mul_le_mul_right _ (by omega)
  · rw [Nat.mul_le_mul_right_iff (Nat.two_pow_pos e)]
    constructor <;> intro h <;> omega
  · refine iff_of_false (Nat.not_le_of_lt ?_) (Nat.not_le_of_lt ?_)
    · calc 2 ^ m * 2 ^ k < 2 ^ m * 2 ^ e :=
            Nat.mul_lt_mul_of_pos_left (Nat.pow_lt_pow_right (by decide) h) (Nat.two_pow_pos m)
        _ ≤ (2 ^ m + fraction) * 2 ^ e := Nat.mul_le_mul_right _ (Nat.le_add_right _ _)
    · calc (k + 1) * 2 ^ m < (e + 1) * 2 ^ m := Nat.mul_lt_mul_of_pos_right (by omega) (Nat.two_pow_pos m)
        _ ≤ (e + 1) * 2 ^ m + fraction := Nat.le_add_right _ _

/-- Where the exponent field of 16, `4 + (2 ^ (x - 1) - 2) + 1`, is below that of the infinities, a number is in
range exactly when its pattern without the sign is at most that of 16. -/
theorem within16_iff {m x bits : Nat} (hx : 4 + (2 ^ (x - 1) - 2) + 1 < 2 ^ x - 1) :
    within16 m x bits = true ↔
      bits / 2 ^ m % 2 ^ x * 2 ^ m + bits % 2 ^ m ≤ (4 + (2 ^ (x - 1) - 2) + 1) * 2 ^ m := by
  have hf : bits % 2 ^ m < 2 ^ m := Nat.mod_lt _ (Nat.two_pow_pos m)
  unfold within16 magnitude
  generalize 4 + (2 ^ (x - 1) - 2) = k at hx ⊢
  generalize bits / 2 ^ m % 2 ^ x = e
  generalize bits % 2 ^ m = fraction at hf ⊢
  by_cases hnan : e = 2 ^ x - 1
  · simp only [if_pos hnan]
    refine iff_of_false Bool.false_ne_true (Nat.not_le_of_lt ?_)
    calc (k + 1) * 2 ^ m < e * 2 ^ m := Nat.mul_lt_mul_of_pos_right (hnan ▸ hx) (Nat.two_pow_pos m)
      _ ≤ e * 2 ^ m + fraction := Nat.le_add_right _ _
  · cases e with
    | zero =>
      simp only [if_neg hnan, if_pos, decide_eq_true_eq]
      refine iff_of_true ?_ ?_
      · exact hf.le.trans (Nat.pow_le_pow_right (by decide) (Nat.le_add_left m k))
      · rw [Nat.zero_mul, Nat.zero_add]
        exact hf.le.trans (Nat.le_mul_of_pos_left _ (Nat.succ_pos k))
    | succ e =>
      simp only [if_neg hnan, if_neg (Nat.succ_ne_zero e), decide_eq_true_eq, Nat.add_sub_cancel]
      exact scaled_le_iff hf e k

/-- Exponent field and fraction, read as one number, are the pattern without the sign. -/
theorem exponent_mul_add_fraction (m x bits : Nat) :
    bits / 2 ^ m % 2 ^ x * 2 ^ m + bits % 2 ^ m = bits % 2 ^ (m + x) := by
  rw [Nat.pow_add, Nat.mod_mul, Nat.mul_comm, Nat.add_comm]

/-- Settles O41: of a binary32 the pattern of 16.0 has the exponent field 131, of a binary16 19. -/
theorem biasRangeByPattern : Obligations.BiasRangeByPattern := by
  refine ⟨fun e => ?_, fun e => ?_⟩
  · refine (within16_iff (m := 23) (x := 8) (by decide)).trans ?_
    rw [exponent_mul_add_fraction]
    exact Iff.rfl
  · refine (within16_iff (m := 10) (x := 5) (by decide)).trans ?_
    rw [exponent_mul_add_fraction, Nat.mod_mod_of_dvd _ (by decide)]
    exact Iff.rfl

/-! ## The masks (R20, R21) -/

/-- Settles O42: a mask control with bit 3 set takes every lane, any other a window of the execution mask. -/
theorem recommendedLaneMask : Obligations.RecommendedLaneMask := by
  intro cfg em ctrl n i hr hn
  have hlanes := allLanes_getLsbD hn i
  simp only [laneEnable, hr, maskFromEM, isNoMask, firstLane_eq]
  cases ctrl.getLsbD 3 with
  | true => simpa using hlanes
  | false =>
    simp only [Bool.false_eq_true, if_false, BitVec.getLsbD_and, BitVec.getLsbD_setWidth,
      BitVec.getLsbD_ushiftRight, hlanes, Bool.false_or]
    by_cases hi : i < n
    · simp [hi, show i < 16 by omega]
    · simp [hi]

theorem predNumber_eq (pred : BitVec 16) : predNumber pred = pred.toNat % 4096 := by
  rw [predNumber, BitVec.extractLsb'_toNat, Nat.shiftRight_zero]

theorem predControl_eq_zero (pred : BitVec 16) : predControl pred = 0 ↔ pred.toNat / 8192 % 4 = 0 := by
  rw [predControl, BitVec.toNat_eq, BitVec.extractLsb'_toNat, Nat.shiftRight_eq_div_pow]
  rfl

/-- A bit of a predicate variable holds a value exactly when the variable has that bit and it does. -/
theorem predBit_eq_some {prd : List (List (Option Bool))} {id lane : Nat} {b : Bool} :
    predBit prd id lane = some b ↔ ∃ bits, prd[id]? = some bits ∧ bits[lane]? = some (some b) := by
  unfold predBit
  cases prd[id]? <;> simp [Option.join_eq_some_iff]

section Predicate

variable {cfg : Config} {prd : List (List (Option Bool))} {em : BitVec 32} {pred : BitVec 16}
  {ctrl : BitVec 4} {n : Nat}

theorem predEval_eq (hr : cfg.predReading = .recommended) :
    predEval cfg prd em pred ctrl n = predFromVariable prd pred ctrl n := by
  rw [predEval, hr]

theorem predFromVariable_of_number_zero (h : predNumber pred = 0) :
    predFromVariable prd pred ctrl n = some (allLanes n) :=
  if_pos h

theorem predFromVariable_of_bits (h : predNumber pred ≠ 0) {bits : List Bool}
    (hbits : predBits prd (predNumber pred) (firstLane ctrl) n = some bits) :
    predFromVariable prd pred ctrl n =
      if predControl pred = 0 then some (maskOfBits (bits.map fun b => b ^^ predInverts pred))
      else some (Config.predCombine (predControl pred) (predInverts pred) bits &&& allLanes n) := by
  simp only [predFromVariable, if_neg h, hbits]

theorem predFromVariable_of_unwritten (h : predNumber pred ≠ 0)
    (hbits : predBits prd (predNumber pred) (firstLane ctrl) n = none) :
    predFromVariable prd pred ctrl n = none := by
  simp only [predFromVariable, if_neg h, hbits]

/-- A mask made of `n` entries. -/
theorem maskOfBits_range (hn : n ≤ 16) (b : Nat → Bool) (i : Nat) :
    (maskOfBits ((List.range n).map b)).getLsbD i = (decide (i < n) && b i) := by
  rw [maskOfBits_getLsbD (by simpa using hn), List.getElem?_map]
  by_cases hi : i < n
  · simp [hi]
  · simp [hi]

end Predicate

/-- Settles O43: the bits of the predicate variable are read from `firstLane`, `n` of them. -/
theorem recommendedPredicate : Obligations.RecommendedPredicate := by
  intro cfg prd em pred ctrl n hr hn
  rw [predEval_eq hr, ← predNumber_eq, ← predControl_eq_zero, ← firstLane_eq]
  refine ⟨fun h0 => ⟨_, predFromVariable_of_number_zero h0, fun i hi => ?_⟩, fun h0 hctrl b hb => ?_,
    fun h0 hall => ?_, fun h0 hnone => ?_⟩
  · rw [allLanes_getLsbD hn, decide_eq_true hi]
  · have hbits := predBits_eq_some fun i hi => predBit_eq_some.2 (hb i hi)
    rw [predFromVariable_of_bits h0 hbits, if_pos hctrl, List.map_map]
    refine ⟨_, rfl, fun i hi => ?_⟩
    rw [maskOfBits_range hn, decide_eq_true hi]
    rfl
  · have hbit (i : Nat) (hi : i < n) : predBit prd (predNumber pred) (firstLane ctrl + i) =
        some ((predBit prd (predNumber pred) (firstLane ctrl + i)).getD false) := by
      obtain ⟨bits, b, hid, hlane⟩ := hall i hi
      rw [predBit_eq_some.2 ⟨bits, hid, hlane⟩]
      rfl
    rw [predFromVariable_of_bits h0 (predBits_eq_some hbit)]
    split
    · refine ⟨_, rfl, fun i hi => ?_⟩
      rw [List.map_map, maskOfBits_range hn, decide_eq_false (Nat.not_lt_of_le hi), Bool.false_and]
    · refine ⟨_, rfl, fun i hi => ?_⟩
      rw [BitVec.getLsbD_and, allLanes_getLsbD hn, decide_eq_false (Nat.not_lt_of_le hi), Bool.and_false]
  · obtain ⟨i, hi, hno⟩ := hnone
    refine predFromVariable_of_unwritten h0 (predBits_eq_none hi ?_)
    rw [Option.eq_none_iff_forall_ne_some]
    rintro b hb
    obtain ⟨bits, hid, hlane⟩ := predBit_eq_some.1 hb
    exact hno bits hid b hlane

end Sys2Proof.Machine
